-- ==== Sys2Proof/Word.lean ====
section
/-! DEFINITION. The word types of WAVC: bytes, the u16 header fields and PCM samples, and the 32-bit registers (spec 00_scope R10, 10_state R22). -/

namespace Sys2Proof

/-- A u8: one byte of the byte buffer (00_scope R10). -/
abbrev Byte := BitVec 8

/-- A u16: a 16-bit header field or the pattern of a 16-bit PCM sample (00_scope R10). -/
abbrev Half := BitVec 16

/-- A u32: a register, a command word, a bus address or a binary32 pattern (00_scope R10, R12). -/
abbrev Word := BitVec 32

end Sys2Proof
end

