-- ==== Sys2Proof/Config.lean ====
section
/-! DEFINITION. What an instance of WAVC fixes (its two capacities) and the free values the spec leaves unspecified (draws, latency). -/

namespace Sys2Proof

/-- The implementation parameters (00_scope R6, R7; 92_eei_decisions D3). A model takes them as arguments: the state
carries them, no step changes them, and a statement over every state holds for every value of them. -/
structure Config where
  /-- `BUF_BYTES`: the capacity of the byte buffer in bytes (R6). -/
  bufBytes : Nat
  /-- `MAX_FRAMES`: the capacity of each channel buffer in elements (R7). -/
  maxFrames : Nat
  deriving DecidableEq, Repr

/-- The parameters that `State.reset` carries: the spec's own upper bounds.
DESIGN CHOICE (log 4), unsafe only for a statement that names these numbers; none does. -/
def Config.atReset : Config := { bufBytes := 2 ^ 28 + 44, maxFrames := 2 ^ 28 }

/-- Free value: what byte `a` of `BYTE` reads as in the step numbered `n` when its contents are unspecified
(20_memory R81). Nothing constrains it (log 1). -/
opaque Config.drawByte : (n : Nat) → (a : Nat) → Byte

/-- Free value: what element `i` of `LEFT` reads as in step `n` when its contents are unspecified (20_memory R81, log 1). -/
opaque Config.drawLeft : (n : Nat) → (i : Nat) → Word

/-- Free value: what element `i` of `RIGHT` reads as in step `n` when its contents are unspecified (20_memory R81, log 1). -/
opaque Config.drawRight : (n : Nat) → (i : Nat) → Word

/-- Free value: what a host read returns in step `n` while a command runs, at a location other than `ID`, `VERSION`,
`CTRL` and `STATUS` (20_memory R80, log 2). -/
opaque Config.drawBusyRead : (n : Nat) → Word

/-- Free value `LATENCY` (00_scope R8): how many machine steps pass between the write, made in step `n`, that latches
a command and the engine step that completes it. Finite because it is a number, and otherwise unconstrained (log 3). -/
opaque Config.latency : (n : Nat) → Nat

end Sys2Proof
end

