-- ==== Sys2Proof/Syntax.lean ====
section
/-! DEFINITION. The instructions of WAVC: the five commands of spec/opcode_table.json (30_encoding R91). -/

namespace Sys2Proof

/-- A command (30_encoding R91). A command word has no operand fields (R90): operands are registers (R94). -/
inductive Instr where
  /-- `LOAD`, OPC 0x01: `loadFrom(bytes)` (42_document_commands R172). -/
  | load
  /-- `CREATE`, OPC 0x02: `create(num_channels, sample_rate, bits_per_sample)` (R174). -/
  | create
  /-- `SET_DATA`, OPC 0x03: `setChannelData(left, right)` (R175). -/
  | setData
  /-- `GET_DATA`, OPC 0x04: `getChannelData()` (R176). -/
  | getData
  /-- `DESTROY`, OPC 0x05: `destroy()` (R177). -/
  | destroy
  deriving DecidableEq, Repr

end Sys2Proof
end

