-- ==== Sys2Proof/WellFormed.lean ====
section
/-! DEFINITION. What may be written down: every command is well-formed, and the parameters of an instance lie in the ranges of 00_scope R6 and R7. -/

namespace Sys2Proof

/-- Format CMD32 has no register or immediate field (30_encoding R90, R95), so a command has nothing that could be out
of range: every term of `Instr` is well-formed. -/
def Instr.wellFormed : Instr → Bool
  | .load => true
  | .create => true
  | .setData => true
  | .getData => true
  | .destroy => true

/-- The constraint of 00_scope R6: one header fits, and every payload length stays at or below 2^28. -/
abbrev Config.bufBytesOk (c : Config) : Prop := 44 ≤ c.bufBytes ∧ c.bufBytes ≤ 2 ^ 28 + 44

/-- The constraint of 00_scope R7: every document LOAD accepts has a frame count that fits the channel buffers. -/
abbrev Config.maxFramesOk (c : Config) : Prop := c.bufBytes - 44 ≤ c.maxFrames ∧ c.maxFrames ≤ 2 ^ 28

/-- The parameters of an instance are legal (00_scope R6, R7). -/
abbrev Config.WellFormed (c : Config) : Prop := c.bufBytesOk ∧ c.maxFramesOk

end Sys2Proof
end

