-- ==== Sys2Proof/Decode.lean ====
section
/-! DEFINITION. The decoder of command words, total on all 2^32 words (30_encoding R102), and the encoder. -/

namespace Sys2Proof

/-- Why a word encodes no command. Both complete with ILLEGAL_COMMAND (30_encoding R92, R93). -/
inductive Illegal where
  /-- A bit of RSVD, bits 31:8, is set (R92). -/
  | reservedBits
  /-- RSVD is zero and OPC is unassigned: 0x00 or 0x06 to 0xFF (R93). -/
  | unassignedOpcode
  deriving DecidableEq, Repr

/-- Field OPC of format CMD32: bits 7:0 (30_encoding R90). -/
def opcField (w : Word) : Byte := w.extractLsb' 0 8

/-- Field RSVD of format CMD32: bits 31:8 (30_encoding R90). -/
def rsvdField (w : Word) : BitVec 24 := w.extractLsb' 8 24

/-- The opcode map (30_encoding R91). -/
def opcodeOf : Instr → Byte
  | .load => 0x01
  | .create => 0x02
  | .setData => 0x03
  | .getData => 0x04
  | .destroy => 0x05

/-- `Decode(w)` of 30_encoding R102. -/
def decode (w : Word) : Except Illegal Instr :=
  if rsvdField w = 0 then
    match (opcField w).toNat with
    | 0x01 => .ok .load
    | 0x02 => .ok .create
    | 0x03 => .ok .setData
    | 0x04 => .ok .getData
    | 0x05 => .ok .destroy
    | _ => .error .unassignedOpcode
  else .error .reservedBits

/-- The command word of an instruction: OPC in bits 7:0, zero in bits 31:8 (30_encoding R90, R91). -/
def encode (i : Instr) : Word := (0 : BitVec 24) ++ opcodeOf i

/-- What `decode` reads from a word of spec/opcode_table.json's numbering: the word is the 32 bits written to `CMD`,
bit 0 the least significant, and bits above `nbits` are zero. A number that does not fit 32 bits is no command word
(30_encoding R100: every command is exactly one 32-bit word). -/
def decodeTableWord (nbits w : Nat) : Option Instr :=
  if nbits ≤ 32 ∧ w < 2 ^ nbits then
    match decode (BitVec.ofNat 32 w) with
    | .ok i => some i
    | .error _ => none
  else none

end Sys2Proof
end

