-- ==== Sys2Proof/Machine/State.lean ====
section
/-! DEFINITION. The state of WAVC (spec 10_state) as plain data, the host's actions, and the state after hardware reset. -/

namespace Sys2Proof.Machine

/-- The document state (10_state R47). -/
inductive DocState where
  | uninit | loaded | created | populated | destroyed
  deriving DecidableEq, Repr

/-- The error codes (60_exceptions R201). -/
inductive ErrCode where
  | none | tooSmall | notWav | dataSizeMismatch | invalidBitsPerSample | invalidNumChannels
  | bufferLengthMismatch | sampleOutOfRange
  /-- Reserved: no rule raises it (R201, 40_header_codec R132). -/
  | invalidSampleRate
  | illegalCommand | invalidState | capacityExceeded
  deriving DecidableEq, Repr

/-- The 13 header registers (10_state R40), one per field of the WavHeader record (40_header_codec R120). -/
structure Header where
  chunkId : Word
  chunkSize : Word
  format : Word
  fmtChunkId : Word
  fmtChunkSize : Word
  audioFormat : Half
  numChannels : Half
  sampleRate : Word
  byteRate : Word
  blockAlign : Half
  bitsPerSample : Half
  dataChunkId : Word
  dataChunkSize : Word
  deriving DecidableEq, Repr

/-- All 13 header registers zero: their reset value, and what DESTROY writes (10_state R40). -/
def Header.zero : Header :=
  { chunkId := 0, chunkSize := 0, format := 0, fmtChunkId := 0, fmtChunkSize := 0, audioFormat := 0,
    numChannels := 0, sampleRate := 0, byteRate := 0, blockAlign := 0, bitsPerSample := 0, dataChunkId := 0,
    dataChunkSize := 0 }

/-- The size of a host transaction (20_memory R60): 1, 2 or 4 bytes. -/
inductive Size where
  | b1 | b2 | b4
  deriving DecidableEq, Repr

/-- A host transaction (20_memory R60). -/
inductive Txn where
  | read (addr : Word) (size : Size)
  /-- The low `size` bytes of `data` are the data written. -/
  | write (addr : Word) (size : Size) (data : Word)
  deriving DecidableEq, Repr

/-- What the outside world can do next (70_reset R244, R230; log 5). -/
inductive HostAction where
  /-- One bus transaction. -/
  | bus (t : Txn)
  /-- The pseudo-instruction `POLL`: read `STATUS` again and again until bit 0 reads 0 (30_encoding R104). -/
  | poll
  /-- The hardware reset input is asserted and released (70_reset R230). -/
  | hardReset
  deriving DecidableEq, Repr

/-- The response to the last served host transaction (the model's own field, log 8). -/
inductive Reply where
  /-- Nothing has been served since hardware reset. -/
  | none
  /-- A write completed. -/
  | done
  /-- A read returned this value, zero-extended from the transaction's size. -/
  | data (v : Word)
  deriving DecidableEq, Repr

/-- Cells of a buffer: index and contents, indices strictly rising; an index that is not listed holds an unspecified
value (20_memory R81). -/
abbrev Cells (α : Type) := List (Nat × α)

/-- The byte buffer: a list of `Host.Cell`. -/
abbrev Memory := Cells (BitVec 8)

/-- A channel buffer: binary32 patterns by element index. -/
abbrev Elements := Cells (BitVec 32)

/-- The state of WAVC (spec 10_state), and below it the model's own fields. -/
structure State where
  /-- `CTRL.MAGIC_AND` (R26). -/
  magicAnd : Bool
  /-- `STATUS.ERR` (R30). -/
  err : Bool
  /-- `STATUS.OVERRUN` (R31). -/
  overrun : Bool
  /-- `STATUS.DOC_STATE` (R32, R47). -/
  docState : DocState
  /-- `ERRCODE.CODE` (R34). -/
  errCode : ErrCode
  /-- `ERRCODE.CHAN` (R34): false is LEFT, true is RIGHT. -/
  errChan : Bool
  /-- `ERRINDEX` (R35). -/
  errIndex : Word
  /-- `ERRVALUE` (R36). -/
  errValue : Word
  /-- `ARG0` (R37). -/
  arg0 : Word
  /-- `ARG1` (R38). -/
  arg1 : Word
  /-- `BYTELEN` (R39). -/
  byteLen : Word
  /-- `LEFTLEN` (R44). -/
  leftLen : Word
  /-- `RIGHTLEN` (R45). -/
  rightLen : Word
  /-- `CHCTL.RPRESENT` (R46). -/
  rPresent : Bool
  /-- `NSAMPLES` (R43). -/
  nSamples : Word
  /-- The header registers (R40). -/
  hdr : Header
  /-- `BYTE` (R48). -/
  byte : Memory
  /-- `LEFT` (R49). -/
  left : Elements
  /-- `RIGHT` (R49). -/
  right : Elements
  /-- `PEND` (R50); `STATUS.BUSY` is 1 exactly when it is not `none` (R29). -/
  pend : Option Word
  /-- The model's own: the implementation parameters (log 4). -/
  cfg : Config
  /-- The model's own: the host actions to come, oldest first (log 5). -/
  inputs : List HostAction
  /-- The model's own: machine steps before the engine executes the latched command (log 3). -/
  wait : Nat
  /-- The model's own: the number that selects this step's free values (log 1). -/
  draws : Nat
  /-- The model's own: the last response on the bus (log 8). -/
  reply : Reply
  deriving DecidableEq, Repr

/-- What stops the machine. -/
inductive Fault where
  /-- BUS_ERROR (60_exceptions R206): raised by the host's step, naming the illegal transaction. Safe: the hardware
  goes on with nothing changed, the model stops (log 7). -/
  | busError (t : Txn)
  deriving DecidableEq, Repr

/-- What the model gives no meaning to. -/
inductive Refusal where
  /-- Raised by an arm of `exec` without a meaning, naming the instruction; safe. No arm raises it in this model. -/
  | notModelled (mnemonic : String)
  deriving DecidableEq, Repr

/-- The state right after hardware reset (70_reset R231, R232). The last five fields are the model's own
(DESIGN CHOICE, logs 1, 3, 4, 5, 8). -/
def State.reset : State :=
  { magicAnd := false, err := false, overrun := false, docState := .uninit,
    errCode := .none, errChan := false, errIndex := 0, errValue := 0,
    arg0 := 0, arg1 := 0, byteLen := 0, leftLen := 0, rightLen := 0, rPresent := false, nSamples := 0,
    hdr := Header.zero, byte := [], left := [], right := [], pend := none,
    cfg := Config.atReset, inputs := [], wait := 0, draws := 0, reply := .none }

end Sys2Proof.Machine
end

