-- ==== Sys2Proof/Machine/Flags.lean ====
section
/-! DEFINITION. The flags and codes WAVC shows in STATUS, CTRL, ERRCODE and CHCTL (10_state R26 to R34, R46). No operation of WAVC computes a condition code (R55). -/

namespace Sys2Proof.Machine

/-- A one-bit field at bit `pos` of a register. -/
def bitField (b : Bool) (pos : Nat) : Word := BitVec.ofNat 32 (b.toNat * 2 ^ pos)

/-- `STATUS.BUSY` is 1 exactly while a command is latched in `PEND` (10_state R29, R50). -/
def State.busy (s : State) : Bool := s.pend.isSome

/-- The values of `STATUS.DOC_STATE` (10_state R32). -/
def DocState.code : DocState → Nat
  | .uninit => 0
  | .loaded => 1
  | .created => 2
  | .populated => 3
  | .destroyed => 4

/-- The values of `ERRCODE.CODE` (60_exceptions R201). -/
def ErrCode.code : ErrCode → Nat
  | .none => 0x00
  | .tooSmall => 0x01
  | .notWav => 0x02
  | .dataSizeMismatch => 0x03
  | .invalidBitsPerSample => 0x04
  | .invalidNumChannels => 0x05
  | .bufferLengthMismatch => 0x06
  | .sampleOutOfRange => 0x07
  | .invalidSampleRate => 0x08
  | .illegalCommand => 0x10
  | .invalidState => 0x11
  | .capacityExceeded => 0x12

/-- `STATUS` as the host reads it: BUSY bit 0, ERR bit 1, OVERRUN bit 2, DOC_STATE bits 6:4 (10_state R29 to R32). -/
def State.statusWord (s : State) : Word :=
  bitField s.busy 0 ||| bitField s.err 1 ||| bitField s.overrun 2 ||| BitVec.ofNat 32 (s.docState.code * 2 ^ 4)

/-- `CTRL` as the host reads it: MAGIC_AND bit 0; SRST and bits 31:2 read 0 (10_state R26, R27, R28). -/
def State.ctrlWord (s : State) : Word := bitField s.magicAnd 0

/-- `ERRCODE` as the host reads it: CODE bits 7:0, CHAN bit 8 (10_state R34). -/
def State.errcodeWord (s : State) : Word := BitVec.ofNat 32 s.errCode.code ||| bitField s.errChan 8

/-- `CHCTL` as the host reads it: RPRESENT bit 0 (10_state R46). -/
def State.chctlWord (s : State) : Word := bitField s.rPresent 0

/-- A host write was dropped because BUSY = 1: OVERRUN is set (20_memory R79, 10_state R31). -/
def State.setOverrun (s : State) : State := { s with overrun := true }

/-- A host write `v` to `STATUS`: bit 2 is W1C, every other bit is unaffected (10_state R31, R32). -/
def State.writeStatus (v : Word) (s : State) : State := { s with overrun := s.overrun && !v.getLsbD 2 }

end Sys2Proof.Machine
end

