-- ==== Sys2Proof/Machine/Ops.lean ====
section
/-! DEFINITION. The shared operations: buffer cells, MemRead and MemWrite (00_scope R11), completion of a command (42 R179), latching a command (10_state R33) and the resets (70 R230 to R234). -/

namespace Sys2Proof.Machine

/-- What cell `k` holds; `none` when its contents are unspecified (20_memory R81). -/
def Cells.find {α : Type} : Cells α → Nat → Option α
  | [], _ => none
  | (j, x) :: rest, k => if j = k then some x else Cells.find rest k

/-- Cell `k` now holds `v`; the indices stay strictly rising. -/
def Cells.put {α : Type} : Cells α → Nat → α → Cells α
  | [], k, v => [(k, v)]
  | (j, x) :: rest, k, v =>
    if k < j then (k, v) :: (j, x) :: rest
    else if k = j then (k, v) :: rest
    else (j, x) :: Cells.put rest k v

/-- The canonical form: indices strictly rising. No cell can equal what an unlisted one reads as, since an unlisted
cell holds no value (log 1). -/
abbrev Cells.Rising {α : Type} (m : Cells α) : Prop := (m.map Prod.fst).Pairwise (· < ·)

/-- Every listed cell exists: its index is below the buffer's capacity (10_state R48, R49). -/
abbrev Cells.Within {α : Type} (cap : Nat) (m : Cells α) : Prop := ∀ c ∈ m, c.1 < cap

/-- The canonical form of the byte buffer. -/
abbrev Memory.wf (m : Memory) : Prop := Cells.Rising m

/-- The canonical form of a channel buffer. -/
abbrev Elements.wf (m : Elements) : Prop := Cells.Rising m

/-- `BYTE[a]`, a draw when unspecified (10_state R48, 20_memory R81). Within one step a location has one value. -/
def byteAt (s : State) (a : Nat) : Byte := (Cells.find s.byte a).getD (Config.drawByte s.draws a)

/-- `LEFT[i]`, a draw when unspecified (10_state R49, 20_memory R81). -/
def leftAt (s : State) (i : Nat) : Word := (Cells.find s.left i).getD (Config.drawLeft s.draws i)

/-- `RIGHT[i]`, a draw when unspecified (10_state R49, 20_memory R81). -/
def rightAt (s : State) (i : Nat) : Word := (Cells.find s.right i).getD (Config.drawRight s.draws i)

/-- `MemRead(BYTE, a, n)`: the n-byte little-endian unsigned integer at `a` (00_scope R11). -/
def memRead (s : State) (a : Nat) : (n : Nat) → Nat
  | 0 => 0
  | n + 1 => (byteAt s a).toNat + 256 * memRead s (a + 1) n

/-- `MemWrite(BYTE, a, n, v)`: byte k of `v mod 256^n` goes to `BYTE[a+k]` (00_scope R11). -/
def memWrite (m : Memory) (a : Nat) : (n : Nat) → (v : Nat) → Memory
  | 0, _ => m
  | n + 1, v => memWrite (Cells.put m a (BitVec.ofNat 8 v)) (a + 1) n (v / 256)

/-- The info a command error records (60_exceptions R201): channel, element index and element pattern. -/
structure SampleInfo where
  chan : Bool
  index : Word
  value : Word
  deriving DecidableEq, Repr

/-- `none` in place of the info: nothing is recorded (60_exceptions R201). -/
def SampleInfo.absent : SampleInfo := { chan := false, index := 0, value := 0 }

/-- What `raise Error(code, info)` carries (00_scope R11). -/
structure CmdError where
  code : ErrCode
  info : SampleInfo
  deriving DecidableEq, Repr

/-- `raise Error(code, none)` (00_scope R11). -/
def raise {α : Type} (code : ErrCode) : Except CmdError α := .error { code := code, info := SampleInfo.absent }

/-- `Complete(code, info)` (42_document_commands R179): the one way a command ends, in success or in error. WAVC has no
other exception entry (60_exceptions R200, R209) and no return (R210). The draw counter moves on (log 1). -/
def complete (code : ErrCode) (info : SampleInfo) (s : State) : State :=
  let sor := code = .sampleOutOfRange
  { s with
    errCode := code
    errChan := if sor then info.chan else false
    errIndex := if sor then info.index else 0
    errValue := if sor then info.value else 0
    err := code != .none
    pend := none
    wait := 0
    draws := s.draws + 1 }

/-- A host write of `w` to `CMD` while BUSY = 0 latches `w` (10_state R33); the engine's step comes after the
unspecified latency (00_scope R8, log 3). -/
def State.latch (w : Word) (s : State) : State := { s with pend := some w, wait := Config.latency s.draws }

/-- One machine step passes while a command waits for the engine (00_scope R8, log 3). -/
def State.waited (s : State) : State := { s with wait := s.wait - 1 }

/-- Every register, `DOC_STATE` and `PEND` at its reset value (70_reset R231); the buffers and the model's own record
of the outside world are kept. -/
def State.resetRegisters (s : State) : State :=
  { State.reset with
    byte := s.byte, left := s.left, right := s.right
    cfg := s.cfg, inputs := s.inputs, draws := s.draws, reply := s.reply }

/-- Every byte of `BYTE` and every element of `LEFT` and `RIGHT` becomes unspecified (70_reset R232, R234). -/
def State.forgetBuffers (s : State) : State := { s with byte := [], left := [], right := [] }

/-- The soft reset (70_reset R233): the registers as after hardware reset, the buffers kept; if it aborts a command,
the buffers become unspecified (R234). -/
def State.softReset (s : State) : State :=
  if s.busy then s.resetRegisters.forgetBuffers else s.resetRegisters

/-- The hardware reset (70_reset R230 to R232). Nothing has been served since (log 8). -/
def State.hardReset (s : State) : State :=
  { s.resetRegisters.forgetBuffers with draws := s.draws + 1, reply := .none }

end Sys2Proof.Machine
end

