-- ==== Sys2Proof/Machine/Operands.lean ====
section
/-! DEFINITION. Where commands and host transactions find their operands: the register map (10_state R22), CREATE's operands (30_encoding R95), and the payload's geometry (41 R145, R146). -/

namespace Sys2Proof.Machine

/-- The named registers of the REG aperture (10_state R22). -/
inductive Reg where
  | id | version | ctrl | status | cmd | errcode | errindex | errvalue | arg0 | arg1 | bytelen | leftlen | rightlen
  | chctl | nsamples | hdrChunkId | hdrChunkSize | hdrFormat | hdrFmtChunkId | hdrFmtChunkSize | hdrAudioFormat
  | hdrNumChannels | hdrSampleRate | hdrByteRate | hdrBlockAlign | hdrBitsPerSample | hdrDataChunkId
  | hdrDataChunkSize
  deriving DecidableEq, Repr

/-- The register at a byte offset of the aperture; `none` for a reserved offset (10_state R22, 20_memory R63). -/
def Reg.at? : (offset : Nat) → Option Reg
  | 0x000 => some .id
  | 0x004 => some .version
  | 0x008 => some .ctrl
  | 0x00C => some .status
  | 0x010 => some .cmd
  | 0x014 => some .errcode
  | 0x018 => some .errindex
  | 0x01C => some .errvalue
  | 0x020 => some .arg0
  | 0x024 => some .arg1
  | 0x028 => some .bytelen
  | 0x02C => some .leftlen
  | 0x030 => some .rightlen
  | 0x034 => some .chctl
  | 0x038 => some .nsamples
  | 0x040 => some .hdrChunkId
  | 0x044 => some .hdrChunkSize
  | 0x048 => some .hdrFormat
  | 0x04C => some .hdrFmtChunkId
  | 0x050 => some .hdrFmtChunkSize
  | 0x054 => some .hdrAudioFormat
  | 0x058 => some .hdrNumChannels
  | 0x05C => some .hdrSampleRate
  | 0x060 => some .hdrByteRate
  | 0x064 => some .hdrBlockAlign
  | 0x068 => some .hdrBitsPerSample
  | 0x06C => some .hdrDataChunkId
  | 0x070 => some .hdrDataChunkSize
  | _ => none

/-- The value a host read of a register returns while BUSY = 0 (10_state R23 to R46). The u16 header fields are
zero-extended (R40); `CMD` reads 0 (R33). -/
def readReg (s : State) : Reg → Word
  | .id => 0x43564157
  | .version => 0x00000007
  | .ctrl => s.ctrlWord
  | .status => s.statusWord
  | .cmd => 0
  | .errcode => s.errcodeWord
  | .errindex => s.errIndex
  | .errvalue => s.errValue
  | .arg0 => s.arg0
  | .arg1 => s.arg1
  | .bytelen => s.byteLen
  | .leftlen => s.leftLen
  | .rightlen => s.rightLen
  | .chctl => s.chctlWord
  | .nsamples => s.nSamples
  | .hdrChunkId => s.hdr.chunkId
  | .hdrChunkSize => s.hdr.chunkSize
  | .hdrFormat => s.hdr.format
  | .hdrFmtChunkId => s.hdr.fmtChunkId
  | .hdrFmtChunkSize => s.hdr.fmtChunkSize
  | .hdrAudioFormat => s.hdr.audioFormat.setWidth 32
  | .hdrNumChannels => s.hdr.numChannels.setWidth 32
  | .hdrSampleRate => s.hdr.sampleRate
  | .hdrByteRate => s.hdr.byteRate
  | .hdrBlockAlign => s.hdr.blockAlign.setWidth 32
  | .hdrBitsPerSample => s.hdr.bitsPerSample.setWidth 32
  | .hdrDataChunkId => s.hdr.dataChunkId
  | .hdrDataChunkSize => s.hdr.dataChunkSize

/-- CREATE's operand `sample_rate`: `ARG0[31:0]` (30_encoding R95). -/
def sampleRateOperand (s : State) : Word := s.arg0

/-- CREATE's operand `num_channels`: `ARG1[15:0]`, a u16 (30_encoding R95). -/
def numChannelsOperand (s : State) : Half := s.arg1.extractLsb' 0 16

/-- CREATE's operand `bits_per_sample`: `ARG1[31:16]`, a u16 (30_encoding R95). -/
def bitsPerSampleOperand (s : State) : Half := s.arg1.extractLsb' 16 16

/-- `w`: the bytes per sample (41_sample_converter R145). -/
def bytesPerSample (bps : Nat) : Nat := bps / 8

/-- `blk`: the bytes per frame (41_sample_converter R145). -/
def bytesPerFrame (nc bps : Nat) : Nat := nc * bytesPerSample bps

/-- The offset in `BYTE` of channel `c` of frame `i`: sample slot `i*nc + c` after the header (41 R146, R147). -/
def sampleOffset (nc bps i c : Nat) : Nat := 44 + (i * nc + c) * bytesPerSample bps

end Sys2Proof.Machine
end

