-- ==== Sys2Proof/Machine/Header.lean ====
section
/-! DEFINITION. The header codec (40_header_codec): HdrDecode, MagicOk, HdrEncode, ComputeDerived, CreateHeader. -/

namespace Sys2Proof.Machine

/-- The tag `"RIFF"` as a u32 (00_scope R13). -/
def tagRiff : Word := 0x46464952
/-- The tag `"WAVE"` as a u32 (00_scope R13). -/
def tagWave : Word := 0x45564157
/-- The tag `"fmt "` as a u32 (00_scope R13). -/
def tagFmt : Word := 0x20746D66
/-- The tag `"data"` as a u32 (00_scope R13). -/
def tagData : Word := 0x61746164

/-- The 13 fields read one by one at the offsets of 40_header_codec R120 (R121, R122, R124). -/
def headerFields (s : State) : Header :=
  { chunkId := BitVec.ofNat 32 (memRead s 0 4)
    chunkSize := BitVec.ofNat 32 (memRead s 4 4)
    format := BitVec.ofNat 32 (memRead s 8 4)
    fmtChunkId := BitVec.ofNat 32 (memRead s 12 4)
    fmtChunkSize := BitVec.ofNat 32 (memRead s 16 4)
    audioFormat := BitVec.ofNat 16 (memRead s 20 2)
    numChannels := BitVec.ofNat 16 (memRead s 22 2)
    sampleRate := BitVec.ofNat 32 (memRead s 24 4)
    byteRate := BitVec.ofNat 32 (memRead s 28 4)
    blockAlign := BitVec.ofNat 16 (memRead s 32 2)
    bitsPerSample := BitVec.ofNat 16 (memRead s 34 2)
    dataChunkId := BitVec.ofNat 32 (memRead s 36 4)
    dataChunkSize := BitVec.ofNat 32 (memRead s 40 4) }

/-- **HdrDecode** (40_header_codec R122): TOO_SMALL when fewer than 44 bytes are available. -/
def hdrDecode (s : State) (len : Nat) : Except CmdError Header :=
  if len < 44 then raise .tooSmall else .ok (headerFields s)

/-- **MagicOk** (40_header_codec R125): either tag when `strict` is 0, both when it is 1. Only these two tags are
examined (R126). -/
def magicOk (h : Header) (strict : Bool) : Bool :=
  let riff := h.chunkId == tagRiff
  let wave := h.format == tagWave
  if strict then riff && wave else riff || wave

/-- **HdrEncode** (40_header_codec R127): the 13 fields written one by one at the offsets of R120 (R121, R129). -/
def hdrEncode (h : Header) (m : Memory) : Memory :=
  let m := memWrite m 0 4 h.chunkId.toNat
  let m := memWrite m 4 4 h.chunkSize.toNat
  let m := memWrite m 8 4 h.format.toNat
  let m := memWrite m 12 4 h.fmtChunkId.toNat
  let m := memWrite m 16 4 h.fmtChunkSize.toNat
  let m := memWrite m 20 2 h.audioFormat.toNat
  let m := memWrite m 22 2 h.numChannels.toNat
  let m := memWrite m 24 4 h.sampleRate.toNat
  let m := memWrite m 28 4 h.byteRate.toNat
  let m := memWrite m 32 2 h.blockAlign.toNat
  let m := memWrite m 34 2 h.bitsPerSample.toNat
  let m := memWrite m 36 4 h.dataChunkId.toNat
  memWrite m 40 4 h.dataChunkSize.toNat

/-- The fields ComputeDerived returns (40_header_codec R130). -/
structure Derived where
  byteRate : Word
  blockAlign : Half
  chunkSize : Word
  dataChunkSize : Word
  deriving DecidableEq, Repr

/-- **ComputeDerived** (40_header_codec R130): `block_align` = nc × bps / 8, `byte_rate` = sr × block_align mod 2^32
(R132), `chunk_size` = 36 + data_len (no overflow by R131), `data_chunk_size` = data_len. -/
def computeDerived (nc : Half) (sr : Word) (bps : Half) (dataLen : Nat) : Derived :=
  let blockAlign := nc.toNat * bps.toNat / 8
  { byteRate := BitVec.ofNat 32 (sr.toNat * blockAlign)
    blockAlign := BitVec.ofNat 16 blockAlign
    chunkSize := BitVec.ofNat 32 (36 + dataLen)
    dataChunkSize := BitVec.ofNat 32 dataLen }

/-- **CreateHeader** (40_header_codec R133): both sizes zero, `byte_rate` and `block_align` derived at once. -/
def createHeader (nc : Half) (sr : Word) (bps : Half) : Header :=
  let d := computeDerived nc sr bps 0
  { chunkId := tagRiff, chunkSize := 0, format := tagWave, fmtChunkId := tagFmt, fmtChunkSize := 16,
    audioFormat := 1, numChannels := nc, sampleRate := sr, byteRate := d.byteRate, blockAlign := d.blockAlign,
    bitsPerSample := bps, dataChunkId := tagData, dataChunkSize := 0 }

end Sys2Proof.Machine
end

