-- ==== Sys2Proof/Machine/Float.lean ====
section
/-! DEFINITION. Binary32 arithmetic on patterns (00_scope R12): every finite binary32 is a whole number of units of 2^-149, so operations are exact on integers and rounded once, to nearest with ties to even. -/

namespace Sys2Proof.Machine

/-- The sign, bit 31 (00_scope R12). -/
def f32Sign (v : Word) : Bool := v.getLsbD 31

/-- The biased exponent, bits 30:23 (00_scope R12). -/
def f32Exp (v : Word) : Nat := (v.extractLsb' 23 8).toNat

/-- The fraction, bits 22:0 (00_scope R12). -/
def f32Frac (v : Word) : Nat := (v.extractLsb' 0 23).toNat

/-- A NaN: exponent all ones, fraction not zero. -/
def f32IsNaN (v : Word) : Bool := f32Exp v == 255 && f32Frac v != 0

/-- The units of 2^-149 in 1.0. -/
def unitsPerOne : Nat := 2 ^ 149

/-- The magnitude of a finite value in units of 2^-149; an infinity counts as 2^128, above every finite value. -/
def f32Mag (v : Word) : Nat :=
  if f32Exp v = 0 then f32Frac v else (2 ^ 23 + f32Frac v) * 2 ^ (f32Exp v - 1)

/-- The value of a finite binary32 in units of 2^-149. -/
def f32Units (v : Word) : Int := if f32Sign v then -(f32Mag v : Int) else f32Mag v

/-- The magnitude pattern (bits 30:0) of the binary32 nearest to `num/den` units, ties to even. With `2^k` units as the
spacing of binary32 values at this magnitude, the rounded quotient `q` is at most 2^24 and the pattern is
`k*2^23 + q`; a carry out of `q` lands in the exponent. From 2^128 on, the pattern is infinity's. -/
def roundMag (num den : Nat) : Nat :=
  let k := (num / den).log2 - 23
  let d := den * 2 ^ k
  let q := num / d
  let r := num % d
  let up := d < 2 * r ∨ (d = 2 * r ∧ q % 2 = 1)
  min (k * 2 ^ 23 + (if up then q + 1 else q)) 0x7F800000

/-- `rne32` (00_scope R12) of the real number of `num/den` units. An exact zero gives +0 (log 12). -/
def rne32 (num : Int) (den : Nat) : Word :=
  BitVec.ofNat 32 ((if num < 0 then 2 ^ 31 else 0) + roundMag num.natAbs den)

/-- `f32_add(a, b) = rne32(a + b)` (00_scope R12). -/
def f32Add (a b : Word) : Word := rne32 (f32Units a + f32Units b) 1

/-- `f32_sub(a, b) = rne32(a - b)` (00_scope R12). -/
def f32Sub (a b : Word) : Word := rne32 (f32Units a - f32Units b) 1

/-- `f32_mul(a, b) = rne32(a * b)` (00_scope R12). -/
def f32Mul (a b : Word) : Word := rne32 (f32Units a * f32Units b) unitsPerOne

/-- `f32_div(a, b) = rne32(a / b)` (00_scope R12), for `b` other than zero. -/
def f32Div (a b : Word) : Word := rne32 (f32Units a * unitsPerOne * (f32Units b).sign) (f32Units b).natAbs

/-- `f32(k)`: the binary32 value of an integer, exact for |k| up to 2^24 (00_scope R12). -/
def f32OfInt (k : Int) : Word := rne32 (k * unitsPerOne) 1

/-- `trunc(x)`: the integer part, toward zero (00_scope R12). -/
def f32Trunc (v : Word) : Int := (f32Units v).tdiv unitsPerOne

/-- `abs(v)` clears the sign (00_scope R12). -/
def f32Abs (v : Word) : Word := v &&& 0x7FFFFFFF

/-- The IEEE comparison `a ≤ b`: false when either is a NaN, and −0.0 = +0.0 (00_scope R12). -/
def f32Le (a b : Word) : Bool := !f32IsNaN a && !f32IsNaN b && decide (f32Units a ≤ f32Units b)

/-- The IEEE comparison `a < b`: false when either is a NaN (00_scope R12). -/
def f32Lt (a b : Word) : Bool := !f32IsNaN a && !f32IsNaN b && decide (f32Units a < f32Units b)

/-- 1.0. -/
def f32One : Word := 0x3F800000

/-- −1.0. -/
def f32NegOne : Word := 0xBF800000

end Sys2Proof.Machine
end

