-- ==== Sys2Proof/Machine/Sample.lean ====
section
/-! DEFINITION. The sample converter (41_sample_converter): the scalar conversions, InRange, Unpack, PackValidate, PackWrite. -/

namespace Sys2Proof.Machine

/-- **U8ToF32** (41_sample_converter R140): (r − 127) / 127, then the mandatory clamp. -/
def u8ToF32 (r : Byte) : Word :=
  let t := f32Sub (f32OfInt r.toNat) (f32OfInt 127)
  let q := f32Div t (f32OfInt 127)
  let q := if f32Lt f32One q then f32One else q
  if f32Lt q f32NegOne then f32NegOne else q

/-- **S16ToF32** (41_sample_converter R141): s / 32767 with no clamp, for the pattern of an s16. -/
def s16ToF32 (p : Half) : Word := f32Div (f32OfInt p.toInt) (f32OfInt 32767)

/-- **InRange** (41_sample_converter R142): |v| ≤ 1.0, false for a NaN. -/
def inRange (v : Word) : Bool := f32Le (f32Abs v) f32One

/-- **F32ToU8** (41_sample_converter R143): two binary32 roundings, then truncation. Called with InRange(v) only. -/
def f32ToU8 (v : Word) : Int := f32Trunc (f32Add (f32Mul v (f32OfInt 127)) (f32OfInt 127))

/-- **F32ToS16** (41_sample_converter R144): one binary32 rounding, then truncation. Called with InRange(v) only. -/
def f32ToS16 (v : Word) : Int := f32Trunc (f32Mul v (f32OfInt 32767))

/-- The sample of channel `c` of frame `i`, unpacked (41_sample_converter R147). -/
def unpackSample (s : State) (nc bps i c : Nat) : Word :=
  let off := sampleOffset nc bps i c
  if bytesPerSample bps = 1 then u8ToF32 (BitVec.ofNat 8 (memRead s off 1))
  else s16ToF32 (BitVec.ofNat 16 (memRead s off 2))

/-- Channel `c` of **Unpack** (41_sample_converter R147) written to elements 0 to N−1 of a channel buffer
(42_document_commands R176). -/
def unpackInto (s : State) (n nc bps c : Nat) (buf : Elements) : Elements :=
  (List.range n).foldl (fun m i => Cells.put m i (unpackSample s nc bps i c)) buf

/-- The first element of a channel buffer, in ascending order from 0, that fails InRange (41_sample_converter R149). -/
def firstOutOfRange (elem : Nat → Word) (n : Nat) : Option Nat :=
  (List.range n).find? fun i => !inRange (elem i)

/-- The range check (4) of PackValidate: LEFT ascending, then for stereo RIGHT ascending (41_sample_converter R148,
R149). -/
def rangeError (s : State) (stereo : Bool) (n : Nat) : Option SampleInfo :=
  match firstOutOfRange (leftAt s) n with
  | some i => some { chan := false, index := BitVec.ofNat 32 i, value := leftAt s i }
  | none =>
    if stereo then
      match firstOutOfRange (rightAt s) n with
      | some i => some { chan := true, index := BitVec.ofNat 32 i, value := rightAt s i }
      | none => none
    else none

/-- **PackValidate** (41_sample_converter R148): the checks in order; the payload length on success. -/
def packValidate (s : State) : Except CmdError Nat :=
  let nc := s.hdr.numChannels.toNat
  let blk := bytesPerFrame nc s.hdr.bitsPerSample.toNat
  let nL := s.leftLen.toNat
  if nc = 1 ∧ s.rPresent = true then raise .invalidNumChannels
  else if nc = 2 ∧ s.rPresent = false then raise .invalidNumChannels
  else if nc = 2 ∧ s.rightLen ≠ s.leftLen then raise .bufferLengthMismatch
  else if s.cfg.maxFrames < nL ∨ s.cfg.bufBytes - 44 < nL * blk then raise .capacityExceeded
  else
    match rangeError s (nc == 2) nL with
    | some info => .error { code := .sampleOutOfRange, info := info }
    | none => .ok (nL * blk)

/-- Channel `c` of frame `i`: LEFT for channel 0, RIGHT otherwise (41_sample_converter R150). -/
def channelAt (s : State) (c i : Nat) : Word := if c = 0 then leftAt s i else rightAt s i

/-- One sample packed at the place of channel `c` of frame `i` (41_sample_converter R150): the low byte, or the two's
complement 16-bit pattern. -/
def packSample (s : State) (nc bps : Nat) (m : Memory) (i c : Nat) : Memory :=
  let v := channelAt s c i
  let off := sampleOffset nc bps i c
  if bytesPerSample bps = 1 then memWrite m off 1 (BitVec.ofInt 8 (f32ToU8 v)).toNat
  else memWrite m off 2 (BitVec.ofInt 16 (f32ToS16 v)).toNat

/-- **PackWrite** (41_sample_converter R150): frames in order, within a frame the channels in order. -/
def packWrite (s : State) (nL nc bps : Nat) (m : Memory) : Memory :=
  (List.range nL).foldl (fun m i => (List.range nc).foldl (fun m c => packSample s nc bps m i c) m) m

end Sys2Proof.Machine
end

