-- ==== Sys2Proof/Machine/Document.lean ====
section
/-! DEFINITION. The document commands (42_document_commands): the engine's common steps and the meaning of LOAD, CREATE, SET_DATA, GET_DATA and DESTROY. -/

namespace Sys2Proof.Machine

/-- The document states a command is allowed in (42_document_commands R171). -/
def allowedIn : Instr → DocState → Bool
  | .load, d => d == .uninit
  | .create, d => d == .uninit
  | .setData, d => d == .created || d == .populated
  | .getData, d => d == .loaded || d == .populated
  | .destroy, d => d == .loaded || d == .created || d == .populated

/-- The engine step for a decoded command (42_document_commands R170): state gating, the command's rule, and the
completion. A rule that raises writes nothing (60_exceptions R204). -/
def runCommand (op : Instr) (rule : State → Except CmdError State) (s : State) :
    Host.Outcome State Fault Refusal :=
  if allowedIn op s.docState then
    match rule s with
    | .ok t => .next (complete .none SampleInfo.absent t)
    | .error e => .next (complete e.code e.info s)
  else .next (complete .invalidState SampleInfo.absent s)

/-- The engine step for a word that encodes no command (42_document_commands R170; 30_encoding R92, R93). -/
def illegalCommand (s : State) : State := complete .illegalCommand SampleInfo.absent s

/-- **NumSamples** (42_document_commands R173). -/
def numSamples (h : Header) : Nat :=
  if h.bitsPerSample = 8 then h.dataChunkSize.toNat / h.numChannels.toNat
  else h.dataChunkSize.toNat / 2 / h.numChannels.toNat

/-- LOAD's rule (42_document_commands R172): checks (a) to (f) in order, then the writes. The comparison (d) is on
exact integers. -/
def loadRule (s : State) : Except CmdError State :=
  let len := s.byteLen.toNat
  if s.cfg.bufBytes < len then raise .capacityExceeded
  else
    match hdrDecode s len with
    | .error e => .error e
    | .ok h =>
      if magicOk h s.magicAnd = false then raise .notWav
      else if len ≠ 44 + h.dataChunkSize.toNat then raise .dataSizeMismatch
      else if ¬(h.bitsPerSample = 8 ∨ h.bitsPerSample = 16) then raise .invalidBitsPerSample
      else if ¬(h.numChannels = 1 ∨ h.numChannels = 2) then raise .invalidNumChannels
      else .ok { s with hdr := h, nSamples := BitVec.ofNat 32 (numSamples h), docState := .loaded }

/-- CREATE's rule (42_document_commands R174). -/
def createRule (s : State) : Except CmdError State :=
  let sr := sampleRateOperand s
  let nc := numChannelsOperand s
  let bps := bitsPerSampleOperand s
  if ¬(bps = 8 ∨ bps = 16) then raise .invalidBitsPerSample
  else if ¬(nc = 1 ∨ nc = 2) then raise .invalidNumChannels
  else .ok { s with hdr := createHeader nc sr bps, nSamples := 0, byteLen := 0, docState := .created }

/-- SET_DATA's rule (42_document_commands R175): validate, derive, encode the header, pack the payload. -/
def setDataRule (s : State) : Except CmdError State :=
  match packValidate s with
  | .error e => .error e
  | .ok p =>
    let d := computeDerived s.hdr.numChannels s.hdr.sampleRate s.hdr.bitsPerSample p
    let h := { s.hdr with chunkSize := d.chunkSize, dataChunkSize := d.dataChunkSize }
    let image := packWrite s s.leftLen.toNat h.numChannels.toNat h.bitsPerSample.toNat (hdrEncode h s.byte)
    .ok { s with
      hdr := h, byte := image, byteLen := BitVec.ofNat 32 (44 + p), nSamples := s.leftLen, docState := .populated }

/-- GET_DATA's rule (42_document_commands R176): it raises nothing. -/
def getDataRule (s : State) : Except CmdError State :=
  let nc := s.hdr.numChannels.toNat
  let bps := s.hdr.bitsPerSample.toNat
  let n := s.nSamples.toNat
  let stereo := nc == 2
  .ok { s with
    left := unpackInto s n nc bps 0 s.left
    right := if stereo then unpackInto s n nc bps 1 s.right else s.right
    leftLen := s.nSamples
    rightLen := if stereo then s.nSamples else 0
    rPresent := stereo }

/-- DESTROY's rule (42_document_commands R177): it raises nothing. `BYTE` becomes unspecified. -/
def destroyRule (s : State) : Except CmdError State :=
  .ok { s with hdr := Header.zero, nSamples := 0, byteLen := 0, byte := [], docState := .destroyed }

/-- **LOAD** (42_document_commands R172). -/
def execLoad (s : State) : Host.Outcome State Fault Refusal := runCommand .load loadRule s

/-- **CREATE** (42_document_commands R174). -/
def execCreate (s : State) : Host.Outcome State Fault Refusal := runCommand .create createRule s

/-- **SET_DATA** (42_document_commands R175). -/
def execSetData (s : State) : Host.Outcome State Fault Refusal := runCommand .setData setDataRule s

/-- **GET_DATA** (42_document_commands R176). -/
def execGetData (s : State) : Host.Outcome State Fault Refusal := runCommand .getData getDataRule s

/-- **DESTROY** (42_document_commands R177). -/
def execDestroy (s : State) : Host.Outcome State Fault Refusal := runCommand .destroy destroyRule s

end Sys2Proof.Machine
end

