-- ==== Sys2Proof/Machine/Dispatch.lean ====
section
/-! DEFINITION. One arm per command, each a direct call of its meaning. -/

namespace Sys2Proof.Machine

def exec (i : Instr) (s : State) : Host.Outcome State Fault Refusal :=
  match i with
  | .load => Sys2Proof.Machine.execLoad s
  | .create => Sys2Proof.Machine.execCreate s
  | .setData => Sys2Proof.Machine.execSetData s
  | .getData => Sys2Proof.Machine.execGetData s
  | .destroy => Sys2Proof.Machine.execDestroy s

end Sys2Proof.Machine
end

