-- ==== Sys2Proof/Machine/Bus.lean ====
section
/-! DEFINITION. The host's bus (20_memory): the apertures, legal transactions, register and buffer reads and writes, the busy protocol, and one turn of the host. -/

namespace Sys2Proof.Machine

/-- The bytes of a transaction (20_memory R60). -/
def Size.bytes : Size → Nat
  | .b1 => 1
  | .b2 => 2
  | .b4 => 4

/-- What a legal transaction reaches. -/
inductive Target where
  /-- A byte offset of the REG aperture. -/
  | reg (offset : Nat)
  /-- Byte `a` of `BYTE`. -/
  | byte (a : Nat)
  /-- Element `i` of `LEFT`. -/
  | left (i : Nat)
  /-- Element `i` of `RIGHT`. -/
  | right (i : Nat)
  deriving DecidableEq, Repr

/-- The target of a legal transaction, or `none` for an illegal one: unmapped, misaligned, of a wrong size or out of
range (20_memory R61, R62, R64, R66). The four apertures start the four windows of 2^30 bytes. -/
def target (cfg : Config) (addr : Word) (size : Size) : Option Target :=
  let window := addr.toNat / 2 ^ 30
  let off := addr.toNat % 2 ^ 30
  let n := size.bytes
  if window = 0 then
    if n = 4 ∧ off % 4 = 0 ∧ off < 0x1000 then some (.reg off) else none
  else if window = 1 then
    if off % n = 0 ∧ off + n ≤ cfg.bufBytes then some (.byte off) else none
  else
    if n = 4 ∧ off % 4 = 0 ∧ off / 4 < cfg.maxFrames then
      some (if window = 2 then .left (off / 4) else .right (off / 4))
    else none

/-- The registers whose reads are exact while a command runs (20_memory R80). -/
def exactWhileBusy : Reg → Bool
  | .id | .version | .ctrl | .status => true
  | .cmd | .errcode | .errindex | .errvalue | .arg0 | .arg1 | .bytelen | .leftlen | .rightlen | .chctl | .nsamples
  | .hdrChunkId | .hdrChunkSize | .hdrFormat | .hdrFmtChunkId | .hdrFmtChunkSize | .hdrAudioFormat | .hdrNumChannels
  | .hdrSampleRate | .hdrByteRate | .hdrBlockAlign | .hdrBitsPerSample | .hdrDataChunkId | .hdrDataChunkSize => false

/-- A legal read while BUSY = 0 (20_memory R62, R63, R65, R66). -/
def readIdle (s : State) (n : Nat) : Target → Word
  | .reg off =>
    match Reg.at? off with
    | some r => readReg s r
    | none => 0
  | .byte a => BitVec.ofNat 32 (memRead s a n)
  | .left i => leftAt s i
  | .right i => rightAt s i

/-- The draw a read of `n` bytes returns while BUSY = 1 (20_memory R80, log 2). -/
def busyDraw (s : State) (n : Nat) : Word := BitVec.ofNat 32 ((Config.drawBusyRead s.draws).toNat % 256 ^ n)

/-- A legal read while BUSY = 1: exact for ID, VERSION, CTRL and STATUS, a draw elsewhere (20_memory R80). -/
def readBusy (s : State) (n : Nat) : Target → Word
  | .reg off =>
    match Reg.at? off with
    | some r => if exactWhileBusy r then readReg s r else busyDraw s n
    | none => busyDraw s n
  | .byte _ => busyDraw s n
  | .left _ => busyDraw s n
  | .right _ => busyDraw s n

/-- The data a legal read returns. -/
def readTarget (s : State) (n : Nat) (t : Target) : Word := if s.busy then readBusy s n t else readIdle s n t

/-- A host write `v` to `CTRL`: bit 1 performs the soft reset and discards bit 0; otherwise bit 0 goes to MAGIC_AND
(10_state R26 to R28). -/
def State.writeCtrl (v : Word) (s : State) : State :=
  if v.getLsbD 1 then s.softReset else { s with magicAnd := v.getLsbD 0 }

/-- A host write to a register while BUSY = 0 (10_state R22, R23, R26 to R46; 20_memory R63). -/
def writeReg (s : State) (v : Word) : Reg → State
  | .ctrl => s.writeCtrl v
  | .status => s.writeStatus v
  | .cmd => s.latch v
  | .arg0 => { s with arg0 := v }
  | .arg1 => { s with arg1 := v }
  | .bytelen => { s with byteLen := v }
  | .leftlen => { s with leftLen := v }
  | .rightlen => { s with rightLen := v }
  | .chctl => { s with rPresent := v.getLsbD 0 }
  | .id | .version | .errcode | .errindex | .errvalue | .nsamples
  | .hdrChunkId | .hdrChunkSize | .hdrFormat | .hdrFmtChunkId | .hdrFmtChunkSize | .hdrAudioFormat | .hdrNumChannels
  | .hdrSampleRate | .hdrByteRate | .hdrBlockAlign | .hdrBitsPerSample | .hdrDataChunkId | .hdrDataChunkSize => s

/-- A legal write while BUSY = 0 (20_memory R62, R63, R65, R66). -/
def writeIdle (s : State) (n : Nat) (v : Word) : Target → State
  | .reg off =>
    match Reg.at? off with
    | some r => writeReg s v r
    | none => s
  | .byte a => { s with byte := memWrite s.byte a n v.toNat }
  | .left i => { s with left := Cells.put s.left i v }
  | .right i => { s with right := Cells.put s.right i v }

/-- A legal write while BUSY = 1 (20_memory R79): a write to STATUS is performed, a CTRL write with bit 1 set performs
the soft reset, every other write is dropped and sets OVERRUN. -/
def writeBusy (s : State) (v : Word) (t : Target) : State :=
  if t = .reg 0x00C then s.writeStatus v
  else if t = .reg 0x008 ∧ v.getLsbD 1 = true then s.softReset
  else s.setOverrun

/-- What a legal write does. -/
def writeTarget (s : State) (n : Nat) (v : Word) (t : Target) : State :=
  if s.busy then writeBusy s v t else writeIdle s n v t

/-- The response to the transaction just served; the draw counter moves on (logs 1, 8). -/
def State.respond (r : Reply) (s : State) : State := { s with reply := r, draws := s.draws + 1 }

/-- One host transaction: BUS_ERROR when it is illegal (60_exceptions R206), otherwise one atomic read or write
(20_memory R68). -/
def transact (t : Txn) (s : State) : Host.Outcome State Fault Refusal :=
  match t with
  | .read addr size =>
    match target s.cfg addr size with
    | none => .fault (.busError t)
    | some tg => .next (s.respond (.data (readTarget s size.bytes tg)))
  | .write addr size v =>
    match target s.cfg addr size with
    | none => .fault (.busError t)
    | some tg => .next ((writeTarget s size.bytes v tg).respond .done)

/-- One read of STATUS by `POLL` (30_encoding R104): it comes again while bit 0 reads 1. -/
def pollOnce (s : State) : State :=
  let again := if s.busy then HostAction.poll :: s.inputs else s.inputs
  { s with inputs := again }.respond (.data s.statusWord)

/-- One host action (70_reset R244, R230). -/
def hostAction (a : HostAction) (s : State) : Host.Outcome State Fault Refusal :=
  match a with
  | .bus t => transact t s
  | .poll => .next (pollOnce s)
  | .hardReset => .next s.hardReset

/-- The host's turn: the oldest action still to come, or nothing (logs 5, 6). -/
def hostTurn (s : State) : Host.Outcome State Fault Refusal :=
  match s.inputs with
  | [] => .next s
  | a :: rest => hostAction a { s with inputs := rest }

end Sys2Proof.Machine
end

