-- ==== Sys2Proof/Machine/HostScript.lean ====
section
/-! DEFINITION. The host-script lines and pseudo-instructions (30_encoding R103, R104) as lists of host actions. -/

namespace Sys2Proof.Machine

/-- `W32 a, v` (30_encoding R103). -/
def scriptW32 (a v : Word) : HostAction := .bus (.write a .b4 v)
/-- `W16 a, v` (30_encoding R103). -/
def scriptW16 (a v : Word) : HostAction := .bus (.write a .b2 v)
/-- `W8 a, v` (30_encoding R103). -/
def scriptW8 (a v : Word) : HostAction := .bus (.write a .b1 v)
/-- `R32 a` (30_encoding R103); the value expected is no part of the transaction. -/
def scriptR32 (a : Word) : HostAction := .bus (.read a .b4)
/-- `R16 a` (30_encoding R103). -/
def scriptR16 (a : Word) : HostAction := .bus (.read a .b2)
/-- `R8 a` (30_encoding R103). -/
def scriptR8 (a : Word) : HostAction := .bus (.read a .b1)

/-- `CMD w` (30_encoding R104). -/
def scriptCmd (w : Word) : List HostAction := [scriptW32 0x00000010 w, .poll]
/-- `LOAD` (30_encoding R104). -/
def scriptLoad : List HostAction := scriptCmd 0x00000001
/-- `CREATE nc, sr, bps` (30_encoding R104). -/
def scriptCreate (nc sr bps : Word) : List HostAction :=
  [scriptW32 0x00000020 sr, scriptW32 0x00000024 ((bps <<< 16) ||| nc)] ++ scriptCmd 0x00000002
/-- `SET_DATA` (30_encoding R104). -/
def scriptSetData : List HostAction := scriptCmd 0x00000003
/-- `GET_DATA` (30_encoding R104). -/
def scriptGetData : List HostAction := scriptCmd 0x00000004
/-- `DESTROY` (30_encoding R104). -/
def scriptDestroy : List HostAction := scriptCmd 0x00000005
/-- `SRST` (30_encoding R104). -/
def scriptSoftReset : List HostAction := [scriptW32 0x00000008 0x00000002]
/-- `FILL8 a, b0 b1 …` (30_encoding R104). -/
def scriptFill8 (a : Nat) : List Byte → List HostAction
  | [] => []
  | b :: rest => scriptW8 (BitVec.ofNat 32 (0x40000000 + a)) (b.setWidth 32) :: scriptFill8 (a + 1) rest

end Sys2Proof.Machine
end

