-- ==== Sys2Proof/Machine/Step.lean ====
section
/-! DEFINITION. One step of the machine: the engine executes the latched command when its latency has run out, and otherwise the host has its turn (00_scope R14, 20_memory R72, 42 R170). -/

namespace Sys2Proof.Machine

/-- The engine's step on the latched word (42_document_commands R170). -/
def engineStep (w : Word) (s : State) : Host.Outcome State Fault Refusal :=
  match decode w with
  | .ok i => exec i s
  | .error _ => .next (illegalCommand s)

/-- One step. The engine moves only while a command is latched (00_scope R14), once the latency the latch drew has
passed (R8, log 3); in every other step the host moves, or nothing does (log 6). -/
def step (s : State) : Host.Outcome State Fault Refusal :=
  match s.pend with
  | none => hostTurn s
  | some w => if s.wait = 0 then engineStep w s else hostTurn s.waited

/-- The word `w` latched in `PEND` with no latency left, so that the next step is the engine's step on it: it stands for
the host write to `CMD` (10_state R33, log 5). Bits of `w` at and above `nbits` are zero. -/
def State.withFetchWord (s : State) (nbits w : Nat) : State :=
  { s with pend := some (BitVec.ofNat 32 (w % 2 ^ nbits)), wait := 0 }

end Sys2Proof.Machine
end

