-- ==== Sys2Proof/Safety.lean ====
section
/-! DEFINITION. What a well-behaved WAVC state is (10_state R51, R52, R30, R34) and which host actions are legal: a run is safe when no step ends in BUS_ERROR (60_exceptions R206). -/

namespace Sys2Proof.Machine

/-- `blk` of 10_state R51: `HDR.num_channels × HDR.bits_per_sample / 8`. -/
def State.frameBytes (s : State) : Nat := s.hdr.numChannels.toNat * s.hdr.bitsPerSample.toNat / 8

/-- The document is in one of the states that hold a document. -/
abbrev State.hasDocument (s : State) : Prop :=
  s.docState = .loaded ∨ s.docState = .created ∨ s.docState = .populated

/-- The buffers are in canonical form and list no cell past their capacity (10_state R48, R49). -/
abbrev State.BuffersOk (s : State) : Prop :=
  (Memory.wf s.byte ∧ Cells.Within s.cfg.bufBytes s.byte) ∧
  (Elements.wf s.left ∧ Cells.Within s.cfg.maxFrames s.left) ∧
  (Elements.wf s.right ∧ Cells.Within s.cfg.maxFrames s.right)

/-- `STATUS.ERR` is 1 iff the last command ended in an error (10_state R30), the reserved code is never recorded
(60_exceptions R201), and CHAN, ERRINDEX and ERRVALUE are 0 for every code but SAMPLE_OUT_OF_RANGE (10_state R34 to
R36). -/
abbrev State.ErrorOk (s : State) : Prop :=
  (s.err = true ↔ s.errCode ≠ .none) ∧ s.errCode ≠ .invalidSampleRate ∧
  (s.errCode ≠ .sampleOutOfRange → s.errChan = false ∧ s.errIndex = 0 ∧ s.errValue = 0)

/-- The document invariants of 10_state R51. They do not depend on `PEND`, which no command rule reads. -/
abbrev State.DocumentOk (s : State) : Prop :=
  (s.docState = .uninit ∨ s.docState = .destroyed → s.hdr = Header.zero ∧ s.nSamples = 0) ∧
  (s.hasDocument →
    (s.hdr.bitsPerSample = 8 ∨ s.hdr.bitsPerSample = 16) ∧ (s.hdr.numChannels = 1 ∨ s.hdr.numChannels = 2)) ∧
  (s.docState = .created → s.nSamples = 0 ∧ s.hdr.chunkSize = 0 ∧ s.hdr.dataChunkSize = 0) ∧
  (s.docState = .populated →
    s.hdr.dataChunkSize.toNat = s.nSamples.toNat * s.frameBytes ∧
    s.hdr.dataChunkSize.toNat ≤ s.cfg.bufBytes - 44 ∧
    s.hdr.chunkSize.toNat = 36 + s.hdr.dataChunkSize.toNat) ∧
  (s.docState = .loaded →
    s.hdr.dataChunkSize.toNat ≤ s.cfg.bufBytes - 44 ∧
    s.nSamples.toNat = s.hdr.dataChunkSize.toNat / s.frameBytes) ∧
  s.nSamples.toNat ≤ s.cfg.maxFrames

/-- A document the write path made has the literal fields CREATE wrote and derived fields that agree with its
parameters (40_header_codec R133; 41_sample_converter R145). -/
abbrev State.DerivedOk (s : State) : Prop :=
  s.docState = .created ∨ s.docState = .populated →
    (s.hdr.chunkId = 0x46464952 ∧ s.hdr.format = 0x45564157 ∧ s.hdr.fmtChunkId = 0x20746D66 ∧
      s.hdr.dataChunkId = 0x61746164 ∧ s.hdr.fmtChunkSize = 16 ∧ s.hdr.audioFormat = 1) ∧
    s.hdr.blockAlign.toNat = s.frameBytes ∧
    s.hdr.byteRate.toNat = s.hdr.sampleRate.toNat * s.frameBytes % 2 ^ 32

/-- The invariant of the machine. -/
abbrev State.Inv (s : State) : Prop :=
  s.cfg.WellFormed ∧ s.BuffersOk ∧ s.ErrorOk ∧ s.DocumentOk ∧ s.DerivedOk

/-- `s` after a command that ended in the error `c` with this info: nothing but the completion registers, `PEND` and
the model's own counters has changed (42_document_commands R179; 60_exceptions R204). -/
def State.failedWith (s : State) (c : ErrCode) (chan : Bool) (index value : Word) : State :=
  { s with
    errCode := c, errChan := chan, errIndex := index, errValue := value, err := true
    pend := none, wait := 0, draws := s.draws + 1 }

/-- `s`, holding what a command's rule wrote, after that command's successful completion (42_document_commands R179). -/
def State.succeeded (s : State) : State :=
  { s with
    errCode := .none, errChan := false, errIndex := 0, errValue := 0, err := false
    pend := none, wait := 0, draws := s.draws + 1 }

/-- A host action that cannot end in BUS_ERROR (20_memory R61 to R66). -/
def HostAction.legal (cfg : Config) : HostAction → Bool
  | .bus (.read addr size) => (target cfg addr size).isSome
  | .bus (.write addr size _) => (target cfg addr size).isSome
  | .poll => true
  | .hardReset => true

/-- A host action that can discard the latched command: the reset input, or a CTRL write with bit 1 set
(70_reset R230, R233). -/
def HostAction.resets (cfg : Config) : HostAction → Bool
  | .bus (.write addr size v) => target cfg addr size == some (.reg 0x008) && v.getLsbD 1
  | .bus (.read _ _) => false
  | .poll => false
  | .hardReset => true

/-- A run of `k` steps is safe from `s`: no step of it stops. -/
def State.SafeFor (s : State) (k : Nat) : Prop := ∃ t, Host.Core.run core k s = .next t

end Sys2Proof.Machine
end

