-- ==== Sys2Proof/Certificates/Slice0/Obligations.lean ====
section
/-! DEFINITION. The statements about WAVC that the provers settle; OBLIGATIONS.json gives each its number, rules and quote. -/

open Sys2Proof Sys2Proof.Machine

/-! ## Encoding -/

/-- 30_encoding R91: the five words of the opcode map, written out from OPC in bits 7:0 and zero above. -/
def Obligations.OpcodeTableWordsDecode : Prop :=
  decode 0b00000000000000000000000000000001 = .ok .load ∧
  decode 0b00000000000000000000000000000010 = .ok .create ∧
  decode 0b00000000000000000000000000000011 = .ok .setData ∧
  decode 0b00000000000000000000000000000100 = .ok .getData ∧
  decode 0b00000000000000000000000000000101 = .ok .destroy ∧
  decode 0x00000103 = .error .reservedBits ∧
  decode 0x00000006 = .error .unassignedOpcode ∧
  decodeTableWord 32 4 = some .getData

/-- 30_encoding R102: `Decode` on all 2^32 words. -/
def Obligations.DecodeIsTheOpcodeMap : Prop :=
  ∀ w : Word,
    (w.extractLsb' 8 24 ≠ 0 → decode w = .error .reservedBits) ∧
    (w.extractLsb' 8 24 = 0 →
      (w.extractLsb' 0 8 = 0x01 → decode w = .ok .load) ∧
      (w.extractLsb' 0 8 = 0x02 → decode w = .ok .create) ∧
      (w.extractLsb' 0 8 = 0x03 → decode w = .ok .setData) ∧
      (w.extractLsb' 0 8 = 0x04 → decode w = .ok .getData) ∧
      (w.extractLsb' 0 8 = 0x05 → decode w = .ok .destroy) ∧
      (w.extractLsb' 0 8 = 0x00 ∨ 0x06 ≤ (w.extractLsb' 0 8).toNat → decode w = .error .unassignedOpcode))

/-- Decoding and encoding agree in both directions: every command has one word, and no other word decodes to it. -/
def Obligations.DecodeEncodeRoundTrip : Prop :=
  (∀ i : Instr, i.wellFormed = true → decode (encode i) = .ok i) ∧
  (∀ (w : Word) (i : Instr), decode w = .ok i → w = encode i)

/-- 30_encoding R92, R93: a word with a reserved bit set, or with an unassigned OPC, completes with ILLEGAL_COMMAND
whatever the document state, and changes nothing but the completion registers. -/
def Obligations.IllegalWordsCompleteIllegalCommand : Prop :=
  ∀ (s : State) (w : Word), s.pend = some w → s.wait = 0 →
    (w.extractLsb' 8 24 ≠ 0 ∨
      (w.extractLsb' 8 24 = 0 ∧ (w.extractLsb' 0 8 = 0x00 ∨ 0x06 ≤ (w.extractLsb' 0 8).toNat))) →
    step s = .next (s.failedWith .illegalCommand false 0 0)

/-! ## The step -/

/-- When the latched word decodes to a command and no latency is left, the step is that command's meaning; nothing is
added around it (42 R170). `withFetchWord` puts a word there. -/
def Obligations.StepRunsTheLatchedCommand : Prop :=
  (∀ (s : State) (w : Word) (i : Instr), s.pend = some w → s.wait = 0 → decode w = .ok i → step s = exec i s) ∧
  (∀ (s : State) (i : Instr),
    step (s.withFetchWord 32 (encode i).toNat) = exec i { s with pend := some (encode i), wait := 0 })

/-- In every other step the host has its turn: the oldest action still to come is served, or nothing happens; while a
command waits, the latency counts down (model's choice, logs 3, 5, 6). -/
def Obligations.StepServesTheHost : Prop :=
  ∀ (s : State),
    (s.pend = none → s.inputs = [] → step s = .next s) ∧
    (∀ a rest, s.pend = none → s.inputs = a :: rest → step s = hostAction a { s with inputs := rest }) ∧
    (∀ w n, s.pend = some w → s.wait = n + 1 → s.inputs = [] → step s = .next { s with wait := n }) ∧
    (∀ w n a rest, s.pend = some w → s.wait = n + 1 → s.inputs = a :: rest →
      step s = hostAction a { s with inputs := rest, wait := n })

/-- 70_reset R241, for the model's latency (log 3): a latched command completes within `wait + 1` steps unless a reset or
an illegal transaction comes first. Only the next `wait` host actions can come before the completion, so nothing is asked
of the later ones. -/
def Obligations.LatchedCommandCompletes : Prop :=
  ∀ (s : State) (w : Word), s.pend = some w →
    (∀ a ∈ s.inputs.take s.wait, HostAction.legal s.cfg a = true ∧ HostAction.resets s.cfg a = false) →
    ∃ t, Host.Core.run core (s.wait + 1) s = .next t ∧ t.pend = none

/-- 20_memory R72, R73, R79: while a command waits, a step either leaves everything the command can read as it was
(only OVERRUN, the host's actions to come and the model's own counters may change) or is a reset that discards it. -/
def Obligations.LatchedCommandInputsAreStable : Prop :=
  ∀ (s t : State) (w : Word), s.pend = some w → s.wait ≠ 0 → step s = .next t →
    t = { s with
      overrun := t.overrun, inputs := t.inputs, wait := s.wait - 1, draws := t.draws, reply := t.reply } ∨
    t = { State.reset with cfg := s.cfg, inputs := t.inputs, draws := t.draws, reply := t.reply }

/-- No step ends in BUS_ERROR while every host action to come is legal (60_exceptions R206). -/
def Obligations.LegalHostsNeverFault : Prop :=
  ∀ (s : State) (k : Nat), (∀ a ∈ s.inputs, HostAction.legal s.cfg a = true) → s.SafeFor k

/-! ## Commands in general -/

/-- 42_document_commands R171: a command outside its allowed document states completes with INVALID_STATE and changes
nothing else; inside them it never reports INVALID_STATE. -/
def Obligations.CommandsAreGatedByDocState : Prop :=
  ∀ (i : Instr) (s : State),
    (((i = .load ∨ i = .create) ∧ s.docState ≠ .uninit) ∨
      (i = .setData ∧ s.docState ≠ .created ∧ s.docState ≠ .populated) ∨
      (i = .getData ∧ s.docState ≠ .loaded ∧ s.docState ≠ .populated) ∨
      (i = .destroy ∧ (s.docState = .uninit ∨ s.docState = .destroyed)) →
      exec i s = .next (s.failedWith .invalidState false 0 0)) ∧
    (((i = .load ∨ i = .create) ∧ s.docState = .uninit) ∨
      (i = .setData ∧ (s.docState = .created ∨ s.docState = .populated)) ∨
      (i = .getData ∧ (s.docState = .loaded ∨ s.docState = .populated)) ∨
      (i = .destroy ∧ (s.docState = .loaded ∨ s.docState = .created ∨ s.docState = .populated)) →
      ∃ t, exec i s = .next t ∧ t.errCode ≠ .invalidState)

/-- 42_document_commands R179: whatever a command does, its completion clears PEND, sets ERR iff the code is not NONE,
records the info of SAMPLE_OUT_OF_RANGE only, and does not write OVERRUN. -/
def Obligations.EveryCommandEndsInOneCompletion : Prop :=
  ∀ (i : Instr) (s : State), ∃ t, exec i s = .next t ∧ t.pend = none ∧ t.busy = false ∧
    (t.err = true ↔ t.errCode ≠ .none) ∧
    (t.errCode ≠ .sampleOutOfRange → t.errChan = false ∧ t.errIndex = 0 ∧ t.errValue = 0) ∧
    t.overrun = s.overrun

/-- 60_exceptions R201, column "raised by", and R205: the codes each command can complete with. -/
def Obligations.CommandsRaiseOnlyTheirCodes : Prop :=
  ∀ (i : Instr) (s t : State), exec i s = .next t →
    t.errCode ∈
      match i with
      | .load => [ErrCode.none, .invalidState, .capacityExceeded, .tooSmall, .notWav, .dataSizeMismatch,
          .invalidBitsPerSample, .invalidNumChannels]
      | .create => [ErrCode.none, .invalidState, .invalidBitsPerSample, .invalidNumChannels]
      | .setData => [ErrCode.none, .invalidState, .invalidNumChannels, .bufferLengthMismatch, .capacityExceeded,
          .sampleOutOfRange]
      | .getData => [ErrCode.none, .invalidState]
      | .destroy => [ErrCode.none, .invalidState]

/-- 60_exceptions R204: a command that completes with a code other than NONE has no effect except the completion
writes. -/
def Obligations.FailedCommandsChangeNothingElse : Prop :=
  ∀ (i : Instr) (s t : State), exec i s = .next t → t.errCode ≠ .none →
    t = s.failedWith t.errCode t.errChan t.errIndex t.errValue

/-- 42_document_commands R180: the document state machine. The triples are the table's moves; every other pair of a
state and a command is INVALID_STATE; an error keeps the state; both resets give UNINIT. -/
def Obligations.DocumentStateMachine : Prop :=
  let moves : List (DocState × Instr × DocState) :=
    [(.uninit, .load, .loaded), (.uninit, .create, .created),
      (.loaded, .getData, .loaded), (.loaded, .destroy, .destroyed),
      (.created, .setData, .populated), (.created, .destroy, .destroyed),
      (.populated, .setData, .populated), (.populated, .getData, .populated), (.populated, .destroy, .destroyed)]
  (∀ (i : Instr) (s t : State), exec i s = .next t →
    (t.errCode = .none → (s.docState, i, t.docState) ∈ moves) ∧
    (t.errCode ≠ .none → t.docState = s.docState) ∧
    ((∀ d, (s.docState, i, d) ∉ moves) → t.errCode = .invalidState)) ∧
  (∀ s : State, s.hardReset.docState = .uninit ∧ s.softReset.docState = .uninit)

/-- The frame of the five commands (30_encoding R94, column "writes"; 42 R172 to R177): what a command may change when
it succeeds, and that everything else is as before. -/
def Obligations.CommandsWriteOnlyTheirState : Prop :=
  ∀ s t : State, s.Inv → t.errCode = .none →
    (exec .load s = .next t →
      t = ({ s with hdr := t.hdr, nSamples := t.nSamples, docState := t.docState } : State).succeeded) ∧
    (exec .create s = .next t →
      t = ({ s with
        hdr := t.hdr, nSamples := t.nSamples, byteLen := t.byteLen, docState := t.docState } : State).succeeded) ∧
    (exec .setData s = .next t →
      t = ({ s with
        hdr := { s.hdr with chunkSize := t.hdr.chunkSize, dataChunkSize := t.hdr.dataChunkSize }
        byte := t.byte, byteLen := t.byteLen, nSamples := t.nSamples, docState := t.docState } : State).succeeded ∧
      ∀ b, t.byteLen.toNat ≤ b → Cells.find t.byte b = Cells.find s.byte b) ∧
    (exec .getData s = .next t →
      t = ({ s with
        left := t.left, right := t.right
        leftLen := t.leftLen, rightLen := t.rightLen, rPresent := t.rPresent } : State).succeeded ∧
      (∀ j, s.nSamples.toNat ≤ j →
        Cells.find t.left j = Cells.find s.left j ∧ Cells.find t.right j = Cells.find s.right j) ∧
      (s.hdr.numChannels = 1 → t.right = s.right)) ∧
    (exec .destroy s = .next t →
      t = ({ s with
        hdr := t.hdr, nSamples := t.nSamples, byteLen := t.byteLen, byte := t.byte
        docState := t.docState } : State).succeeded)

/-- 30_encoding R94, column "reads": two states that agree on what a command reads (and on the parameters and the
step's draws) give the same error result and the same values of what the command writes. -/
def Obligations.CommandsReadOnlyTheirOperands : Prop :=
  ∀ s s' t t' : State, s.Inv → s'.Inv → s.cfg = s'.cfg → s.draws = s'.draws → s.docState = s'.docState →
    let same := t.errCode = t'.errCode ∧ t.errChan = t'.errChan ∧ t.errIndex = t'.errIndex ∧
      t.errValue = t'.errValue ∧ t.err = t'.err ∧ t.docState = t'.docState
    (s.byteLen = s'.byteLen → s.magicAnd = s'.magicAnd →
      (∀ a, a < s.byteLen.toNat → byteAt s a = byteAt s' a) →
      exec .load s = .next t → exec .load s' = .next t' →
      same ∧ (t.errCode = .none → t.hdr = t'.hdr ∧ t.nSamples = t'.nSamples)) ∧
    (s.arg0 = s'.arg0 → s.arg1 = s'.arg1 → exec .create s = .next t → exec .create s' = .next t' →
      same ∧ (t.errCode = .none → t.hdr = t'.hdr ∧ t.nSamples = t'.nSamples ∧ t.byteLen = t'.byteLen)) ∧
    (s.hdr = s'.hdr → s.leftLen = s'.leftLen → s.rightLen = s'.rightLen → s.rPresent = s'.rPresent →
      (∀ i, i < s.leftLen.toNat → leftAt s i = leftAt s' i ∧ rightAt s i = rightAt s' i) →
      exec .setData s = .next t → exec .setData s' = .next t' →
      same ∧ (t.errCode = .none → t.hdr = t'.hdr ∧ t.nSamples = t'.nSamples ∧ t.byteLen = t'.byteLen ∧
        ∀ a, a < t.byteLen.toNat → byteAt t a = byteAt t' a)) ∧
    (s.hdr = s'.hdr → s.nSamples = s'.nSamples → (∀ a, 44 ≤ a → byteAt s a = byteAt s' a) →
      exec .getData s = .next t → exec .getData s' = .next t' →
      same ∧ (t.errCode = .none → t.leftLen = t'.leftLen ∧ t.rightLen = t'.rightLen ∧ t.rPresent = t'.rPresent ∧
        ∀ i, i < s.nSamples.toNat →
          leftAt t i = leftAt t' i ∧ (s.hdr.numChannels = 2 → rightAt t i = rightAt t' i))) ∧
    (exec .destroy s = .next t → exec .destroy s' = .next t' →
      same ∧ (t.errCode = .none → t.hdr = t'.hdr ∧ t.nSamples = t'.nSamples ∧ t.byteLen = t'.byteLen ∧
        t.byte = t'.byte))

/-- 60_exceptions R207 (10_state R31): OVERRUN does not affect any command, and no command changes it. -/
def Obligations.OverrunAffectsNoCommand : Prop :=
  ∀ (i : Instr) (s t : State) (b : Bool), exec i s = .next t →
    exec i { s with overrun := b } = .next { t with overrun := b }

/-! ## Header codec -/

/-- 40_header_codec R122, R124: HdrDecode needs 44 bytes, reads the 13 fields at their offsets, and reads bytes 0 to 43
only. -/
def Obligations.HdrDecodeReadsTheFixedOffsets : Prop :=
  ∀ (s : State) (len : Nat),
    (len < 44 → hdrDecode s len = .error { code := .tooSmall, info := { chan := false, index := 0, value := 0 } }) ∧
    (44 ≤ len → ∃ h, hdrDecode s len = .ok h ∧
      h.chunkId.toNat = memRead s 0 4 ∧ h.chunkSize.toNat = memRead s 4 4 ∧ h.format.toNat = memRead s 8 4 ∧
      h.fmtChunkId.toNat = memRead s 12 4 ∧ h.fmtChunkSize.toNat = memRead s 16 4 ∧
      h.audioFormat.toNat = memRead s 20 2 ∧ h.numChannels.toNat = memRead s 22 2 ∧
      h.sampleRate.toNat = memRead s 24 4 ∧ h.byteRate.toNat = memRead s 28 4 ∧
      h.blockAlign.toNat = memRead s 32 2 ∧ h.bitsPerSample.toNat = memRead s 34 2 ∧
      h.dataChunkId.toNat = memRead s 36 4 ∧ h.dataChunkSize.toNat = memRead s 40 4) ∧
    (∀ s' : State, (∀ a, a < 44 → byteAt s a = byteAt s' a) → hdrDecode s len = hdrDecode s' len)

/-- 40_header_codec R127: HdrEncode writes the 13 fields at their offsets, and nothing from byte 44 on. -/
def Obligations.HdrEncodeWritesTheFixedOffsets : Prop :=
  ∀ (s : State) (h : Header) (m : Memory), s.byte = hdrEncode h m →
    (memRead s 0 4 = h.chunkId.toNat ∧ memRead s 4 4 = h.chunkSize.toNat ∧ memRead s 8 4 = h.format.toNat ∧
      memRead s 12 4 = h.fmtChunkId.toNat ∧ memRead s 16 4 = h.fmtChunkSize.toNat ∧
      memRead s 20 2 = h.audioFormat.toNat ∧ memRead s 22 2 = h.numChannels.toNat ∧
      memRead s 24 4 = h.sampleRate.toNat ∧ memRead s 28 4 = h.byteRate.toNat ∧
      memRead s 32 2 = h.blockAlign.toNat ∧ memRead s 34 2 = h.bitsPerSample.toNat ∧
      memRead s 36 4 = h.dataChunkId.toNat ∧ memRead s 40 4 = h.dataChunkSize.toNat) ∧
    (∀ b, 44 ≤ b → Cells.find s.byte b = Cells.find m b)

/-- 40_header_codec R134: HdrDecode of the bytes HdrEncode wrote returns the header, for every header and every buffer
it is written over. -/
def Obligations.HeaderRoundTrip : Prop :=
  ∀ (s : State) (h : Header) (m : Memory) (len : Nat), 44 ≤ len →
    hdrDecode { s with byte := hdrEncode h m } len = .ok h

/-- 40_header_codec R125: either tag under the reference policy, both under the strict one. -/
def Obligations.MagicOkChecksTheTwoTags : Prop :=
  ∀ h : Header,
    (magicOk h false = true ↔ h.chunkId = 0x46464952 ∨ h.format = 0x45564157) ∧
    (magicOk h true = true ↔ h.chunkId = 0x46464952 ∧ h.format = 0x45564157)

/-- 40_header_codec R130, R132: the derived fields, as exact integers for the payloads WAVC encodes (R131). -/
def Obligations.DerivedFieldsFollowTheFormulas : Prop :=
  ∀ (nc : Half) (sr : Word) (bps : Half) (len : Nat), (nc = 1 ∨ nc = 2) → (bps = 8 ∨ bps = 16) → len ≤ 2 ^ 28 →
    (computeDerived nc sr bps len).blockAlign.toNat * 8 = nc.toNat * bps.toNat ∧
    (computeDerived nc sr bps len).byteRate.toNat = (sr.toNat * nc.toNat * bps.toNat / 8) % 2 ^ 32 ∧
    (computeDerived nc sr bps len).chunkSize.toNat = 36 + len ∧
    (computeDerived nc sr bps len).dataChunkSize.toNat = len

/-! ## The commands -/

/-- 42_document_commands R172, R173: LOAD outside UNINIT, its checks in their order, each with its code, and what a LOAD
that passes them all does. -/
def Obligations.LoadFollowsItsRule : Prop :=
  ∀ s : State,
    (s.docState ≠ .uninit → exec .load s = .next (s.failedWith .invalidState false 0 0)) ∧
    (s.docState = .uninit →
    let len := s.byteLen.toNat
    let h := headerFields s
    let d := h.dataChunkSize.toNat
    let tagsOk := (s.magicAnd = false ∧ (h.chunkId = 0x46464952 ∨ h.format = 0x45564157)) ∨
      (s.magicAnd = true ∧ h.chunkId = 0x46464952 ∧ h.format = 0x45564157)
    let bpsOk := h.bitsPerSample = 8 ∨ h.bitsPerSample = 16
    let ncOk := h.numChannels = 1 ∨ h.numChannels = 2
    (s.cfg.bufBytes < len → exec .load s = .next (s.failedWith .capacityExceeded false 0 0)) ∧
    (len ≤ s.cfg.bufBytes → len < 44 → exec .load s = .next (s.failedWith .tooSmall false 0 0)) ∧
    (len ≤ s.cfg.bufBytes → 44 ≤ len →
      (¬tagsOk → exec .load s = .next (s.failedWith .notWav false 0 0)) ∧
      (tagsOk → len ≠ 44 + d → exec .load s = .next (s.failedWith .dataSizeMismatch false 0 0)) ∧
      (tagsOk → len = 44 + d → ¬bpsOk → exec .load s = .next (s.failedWith .invalidBitsPerSample false 0 0)) ∧
      (tagsOk → len = 44 + d → bpsOk → ¬ncOk →
        exec .load s = .next (s.failedWith .invalidNumChannels false 0 0)) ∧
      (tagsOk → len = 44 + d → bpsOk → ncOk →
        exec .load s = .next ({ s with
          hdr := h
          nSamples := BitVec.ofNat 32
            (if h.bitsPerSample = 8 then d / h.numChannels.toNat else d / 2 / h.numChannels.toNat)
          docState := .loaded } : State).succeeded)))

/-- 42_document_commands R174 with 30_encoding R95 and 40_header_codec R133: CREATE outside UNINIT, its checks in their
order, and the document a CREATE that passes them makes. -/
def Obligations.CreateFollowsItsRule : Prop :=
  ∀ s : State,
    (s.docState ≠ .uninit → exec .create s = .next (s.failedWith .invalidState false 0 0)) ∧
    (s.docState = .uninit →
    let sr := s.arg0.toNat
    let nc := s.arg1.toNat % 65536
    let bps := s.arg1.toNat / 65536
    (bps ≠ 8 ∧ bps ≠ 16 → exec .create s = .next (s.failedWith .invalidBitsPerSample false 0 0)) ∧
    ((bps = 8 ∨ bps = 16) → nc ≠ 1 ∧ nc ≠ 2 →
      exec .create s = .next (s.failedWith .invalidNumChannels false 0 0)) ∧
    ((bps = 8 ∨ bps = 16) → (nc = 1 ∨ nc = 2) →
      exec .create s = .next ({ s with
        hdr :=
          { chunkId := 0x46464952, chunkSize := 0, format := 0x45564157, fmtChunkId := 0x20746D66
            fmtChunkSize := 16, audioFormat := 1, numChannels := BitVec.ofNat 16 nc, sampleRate := s.arg0
            byteRate := BitVec.ofNat 32 (sr * nc * bps / 8), blockAlign := BitVec.ofNat 16 (nc * bps / 8)
            bitsPerSample := BitVec.ofNat 16 bps, dataChunkId := 0x61746164, dataChunkSize := 0 }
        nSamples := 0, byteLen := 0, docState := .created } : State).succeeded))

/-- 41_sample_converter R148, R149: PackValidate's checks in their order as SET_DATA reports them; the sample reported
is the first failing one, LEFT before RIGHT. -/
def Obligations.SetDataChecksInOrder : Prop :=
  ∀ s : State, s.Inv → (s.docState = .created ∨ s.docState = .populated) →
    let nc := s.hdr.numChannels.toNat
    let nL := s.leftLen.toNat
    let P := nL * (nc * (s.hdr.bitsPerSample.toNat / 8))
    let shapeOk := (nc = 1 ∧ s.rPresent = false) ∨ (nc = 2 ∧ s.rPresent = true ∧ s.rightLen = s.leftLen)
    let sizeOk := nL ≤ s.cfg.maxFrames ∧ P ≤ s.cfg.bufBytes - 44
    ((nc = 1 ∧ s.rPresent = true) ∨ (nc = 2 ∧ s.rPresent = false) →
      exec .setData s = .next (s.failedWith .invalidNumChannels false 0 0)) ∧
    (nc = 2 → s.rPresent = true → s.rightLen ≠ s.leftLen →
      exec .setData s = .next (s.failedWith .bufferLengthMismatch false 0 0)) ∧
    (shapeOk → ¬sizeOk → exec .setData s = .next (s.failedWith .capacityExceeded false 0 0)) ∧
    (shapeOk → sizeOk →
      (∀ i, i < nL → inRange (leftAt s i) = false → (∀ j, j < i → inRange (leftAt s j) = true) →
        exec .setData s = .next (s.failedWith .sampleOutOfRange false (BitVec.ofNat 32 i) (leftAt s i))) ∧
      (nc = 2 → (∀ j, j < nL → inRange (leftAt s j) = true) →
        ∀ i, i < nL → inRange (rightAt s i) = false → (∀ j, j < i → inRange (rightAt s j) = true) →
          exec .setData s = .next (s.failedWith .sampleOutOfRange true (BitVec.ofNat 32 i) (rightAt s i))) ∧
      ((∀ j, j < nL → inRange (leftAt s j) = true) → (nc = 2 → ∀ j, j < nL → inRange (rightAt s j) = true) →
        ∃ t, exec .setData s = .next t ∧ t.errCode = .none ∧ t.byteLen = BitVec.ofNat 32 (44 + P)))

/-- 42_document_commands R175 with 41 R146, R150 and 40 R127: SET_DATA outside CREATED and POPULATED, SET_DATA on an
error of PackValidate, and the document it writes when the checks pass: the registers, the header bytes, every packed
sample at its slot, and no byte beyond. -/
def Obligations.SetDataWritesTheDocument : Prop :=
  ∀ s : State, s.Inv →
    (s.docState ≠ .created → s.docState ≠ .populated →
      exec .setData s = .next (s.failedWith .invalidState false 0 0)) ∧
    ((s.docState = .created ∨ s.docState = .populated) →
    (∀ e, packValidate s = .error e →
      exec .setData s = .next (s.failedWith e.code e.info.chan e.info.index e.info.value)) ∧
    (let nc := s.hdr.numChannels.toNat
    let bps := s.hdr.bitsPerSample.toNat
    let nL := s.leftLen.toNat
    let P := nL * (nc * (bps / 8))
    ((nc = 1 ∧ s.rPresent = false) ∨ (nc = 2 ∧ s.rPresent = true ∧ s.rightLen = s.leftLen)) →
    nL ≤ s.cfg.maxFrames → P ≤ s.cfg.bufBytes - 44 →
    (∀ j, j < nL → inRange (leftAt s j) = true) → (nc = 2 → ∀ j, j < nL → inRange (rightAt s j) = true) →
    ∃ t, exec .setData s = .next t ∧
      t = ({ s with
        hdr := { s.hdr with chunkSize := BitVec.ofNat 32 (36 + P), dataChunkSize := BitVec.ofNat 32 P }
        byte := t.byte, byteLen := BitVec.ofNat 32 (44 + P), nSamples := s.leftLen
        docState := .populated } : State).succeeded ∧
      headerFields t = t.hdr ∧
      (∀ i c, i < nL → c < nc →
        let v := if c = 0 then leftAt s i else rightAt s i
        (bps = 8 → byteAt t (44 + (i * nc + c)) = BitVec.ofInt 8 (f32ToU8 v)) ∧
        (bps = 16 → memRead t (44 + 2 * (i * nc + c)) 2 = (BitVec.ofInt 16 (f32ToS16 v)).toNat)) ∧
      (∀ b, 44 + P ≤ b → Cells.find t.byte b = Cells.find s.byte b)))

/-- 42_document_commands R176 with 41 R146, R147: GET_DATA outside LOADED and POPULATED, the samples it unpacks, the
lengths it writes, and the elements it leaves alone. -/
def Obligations.GetDataUnpacksTheDocument : Prop :=
  ∀ s : State, s.Inv →
    (s.docState ≠ .loaded → s.docState ≠ .populated →
      exec .getData s = .next (s.failedWith .invalidState false 0 0)) ∧
    ((s.docState = .loaded ∨ s.docState = .populated) →
    let nc := s.hdr.numChannels.toNat
    let bps := s.hdr.bitsPerSample.toNat
    let N := s.nSamples.toNat
    ∃ t, exec .getData s = .next t ∧
      t = ({ s with
        left := t.left, right := t.right, leftLen := s.nSamples
        rightLen := if nc = 2 then s.nSamples else 0, rPresent := nc == 2 } : State).succeeded ∧
      (∀ i c, i < N → c < nc →
        let v := if c = 0 then leftAt t i else rightAt t i
        (bps = 8 → v = u8ToF32 (byteAt s (44 + (i * nc + c)))) ∧
        (bps = 16 → v = s16ToF32 (byteAt s (45 + 2 * (i * nc + c)) ++ byteAt s (44 + 2 * (i * nc + c))))) ∧
      (∀ j, N ≤ j → Cells.find t.left j = Cells.find s.left j ∧ Cells.find t.right j = Cells.find s.right j) ∧
      (nc = 1 → t.right = s.right))

/-- 42_document_commands R177: DESTROY where no document is held; elsewhere it clears the document, forgets the bytes of
BYTE, and leaves everything else. -/
def Obligations.DestroyReleasesTheDocument : Prop :=
  ∀ s : State,
    (s.docState = .uninit ∨ s.docState = .destroyed →
      exec .destroy s = .next (s.failedWith .invalidState false 0 0)) ∧
    (s.docState = .loaded ∨ s.docState = .created ∨ s.docState = .populated →
    exec .destroy s = .next ({ s with
      hdr := { chunkId := 0, chunkSize := 0, format := 0, fmtChunkId := 0, fmtChunkSize := 0, audioFormat := 0
               numChannels := 0, sampleRate := 0, byteRate := 0, blockAlign := 0, bitsPerSample := 0
               dataChunkId := 0, dataChunkSize := 0 }
      nSamples := 0, byteLen := 0, byte := [], docState := .destroyed } : State).succeeded)

/-- 42_document_commands R178: after a successful LOAD or SET_DATA the document's bytes are BYTE 0 to BYTELEN - 1, with
BYTELEN = 44 + HDR.data_chunk_size as exact integers; LOAD leaves them exactly as the host wrote them. -/
def Obligations.ToBytesIsTheDocument : Prop :=
  ∀ s t : State, s.Inv → t.errCode = .none →
    (exec .load s = .next t ∨ exec .setData s = .next t →
      t.byteLen.toNat = 44 + t.hdr.dataChunkSize.toNat ∧ t.byteLen.toNat ≤ t.cfg.bufBytes) ∧
    (exec .load s = .next t → t.byte = s.byte ∧ t.byteLen = s.byteLen) ∧
    (exec .setData s = .next t → headerFields t = t.hdr)

/-! ## The sample converter -/

/-- 00_scope R12: `rne32` gives a finite binary32 nearest to the real number of `num/den` units of 2^-149, for every
magnitude up to the largest finite one; when another value is as near, the one chosen has an even fraction. -/
def Obligations.RoundingIsToNearestTiesToEven : Prop :=
  ∀ (num : Int) (den : Nat), 0 < den → num.natAbs ≤ den * f32Mag 0x7F7FFFFF →
    let v := rne32 num den
    f32Exp v ≠ 255 ∧
    ∀ w : Word, f32Exp w ≠ 255 →
      (f32Units v * den - num).natAbs ≤ (f32Units w * den - num).natAbs ∧
      ((f32Units v * den - num).natAbs = (f32Units w * den - num).natAbs → f32Units w ≠ f32Units v →
        f32Frac v % 2 = 0)

/-- 41_sample_converter R142: InRange is true exactly when the magnitude is at most 1.0; infinities and NaNs lie above. -/
def Obligations.InRangeIsMagnitudeAtMostOne : Prop :=
  ∀ v : Word, inRange v = true ↔ v.toNat % 2 ^ 31 ≤ 0x3F800000

/-- 41_sample_converter R140: U8ToF32 is the correctly rounded quotient (r − 127)/127 up to r = 254, clamped for 255. -/
def Obligations.U8UnpackIsRoundedAndClamped : Prop :=
  (∀ r : Byte, r ≠ 255 → u8ToF32 r = rne32 (((r.toNat : Int) - 127) * 2 ^ 149) 127) ∧
  u8ToF32 0 = 0xBF800000 ∧ u8ToF32 127 = 0x00000000 ∧ u8ToF32 128 = 0x3C010204 ∧
  u8ToF32 254 = 0x3F800000 ∧ u8ToF32 255 = 0x3F800000

/-- 41_sample_converter R141: S16ToF32 is the correctly rounded quotient s/32767, with no clamp at −32768. -/
def Obligations.S16UnpackIsRoundedUnclamped : Prop :=
  (∀ p : Half, s16ToF32 p = rne32 (p.toInt * 2 ^ 149) 32767) ∧
  s16ToF32 0x7FFF = 0x3F800000 ∧ s16ToF32 0x8001 = 0xBF800000 ∧ s16ToF32 0 = 0x00000000 ∧
  s16ToF32 0x8000 = 0xBF800100 ∧ s16ToF32 0x3FFF = 0x3EFFFE00

/-- 41_sample_converter R143, R144: F32ToU8 rounds twice, after the product with 127 and after the sum, and truncates;
F32ToS16 rounds once and truncates toward zero. Values are in units of 2^-149. -/
def Obligations.PackRoundsThenTruncates : Prop :=
  ∀ v : Word, inRange v = true →
    (let a := rne32 (f32Units v * 127) 1
     let b := rne32 (f32Units a + 127 * 2 ^ 149) 1
     f32ToU8 v = f32Units b / 2 ^ 149) ∧
    (let a := rne32 (f32Units v * 32767) 1
     (f32ToS16 v).natAbs = (f32Units a).natAbs / 2 ^ 149 ∧
       (0 ≤ f32Units v → 0 ≤ f32ToS16 v) ∧ (f32Units v ≤ 0 → f32ToS16 v ≤ 0))

/-- 41_sample_converter R143, R144 and 95_test_vectors V3.2: the corner cases that fix truncation and the order of the
roundings. -/
def Obligations.PackCornerCases : Prop :=
  f32ToU8 0xBF800000 = 0 ∧ f32ToU8 0x00000000 = 127 ∧ f32ToU8 0x80000000 = 127 ∧ f32ToU8 0x3F800000 = 254 ∧
  f32ToU8 0x3F000000 = 190 ∧ f32ToU8 0x3C010204 = 128 ∧ f32ToU8 0x3F7FFFFF = 254 ∧ f32ToU8 0x00000001 = 127 ∧
  f32ToS16 0x3F800000 = 32767 ∧ f32ToS16 0xBF800000 = -32767 ∧ f32ToS16 0x3F000000 = 16383 ∧
  f32ToS16 0xBF000000 = -16383 ∧ f32ToS16 0x3F7FFFFF = 32766 ∧ f32ToS16 0x80000000 = 0 ∧ f32ToS16 0x00000001 = 0

/-- 41_sample_converter R152: the ranges of the four conversions. -/
def Obligations.ConverterOutputRanges : Prop :=
  (∀ r : Byte, inRange (u8ToF32 r) = true) ∧
  (∀ p : Half, f32Units 0xBF800100 ≤ f32Units (s16ToF32 p) ∧ f32Units (s16ToF32 p) ≤ f32Units 0x3F800000) ∧
  (∀ v : Word, inRange v = true → 0 ≤ f32ToU8 v ∧ f32ToU8 v ≤ 254) ∧
  (∀ v : Word, inRange v = true → -32767 ≤ f32ToS16 v ∧ f32ToS16 v ≤ 32767)

/-- 41_sample_converter R153: packing an unpacked sample gives the sample back, but for 255 (which gives 254) and
−32768 (which fails InRange). -/
def Obligations.RawRoundTrip : Prop :=
  (∀ r : Byte, r ≠ 255 → f32ToU8 (u8ToF32 r) = r.toNat) ∧ f32ToU8 (u8ToF32 255) = 254 ∧
  (∀ p : Half, p ≠ 0x8000 → inRange (s16ToF32 p) = true ∧ f32ToS16 (s16ToF32 p) = p.toInt) ∧
  s16ToF32 0x8000 = 0xBF800100 ∧ inRange (s16ToF32 0x8000) = false

/-- 41_sample_converter R154: unpacking a packed sample misses it by less than one step of the width. Values are in
units of 2^-149, so 1/127 is 2^149/127 units. -/
def Obligations.QuantisationBound : Prop :=
  ∀ v : Word, inRange v = true →
    (f32Units v - f32Units (u8ToF32 (BitVec.ofInt 8 (f32ToU8 v)))).natAbs * 127 < 2 ^ 149 ∧
    (f32Units v - f32Units (s16ToF32 (BitVec.ofInt 16 (f32ToS16 v)))).natAbs * 32767 < 2 ^ 149

/-- 41 R154 for whole documents (95_test_vectors S6): GET_DATA after a successful SET_DATA succeeds and gives back
every sample of every channel within one step of the width. -/
def Obligations.PackThenUnpackIsWithinOneStep : Prop :=
  ∀ s t : State, s.Inv → exec .setData s = .next t → t.errCode = .none →
    ∃ u, exec .getData t = .next u ∧ u.errCode = .none ∧ u.leftLen = s.leftLen ∧
      ∀ i, i < s.leftLen.toNat →
        (s.hdr.bitsPerSample = 8 →
          (f32Units (leftAt s i) - f32Units (leftAt u i)).natAbs * 127 < 2 ^ 149 ∧
          (s.hdr.numChannels = 2 →
            (f32Units (rightAt s i) - f32Units (rightAt u i)).natAbs * 127 < 2 ^ 149)) ∧
        (s.hdr.bitsPerSample = 16 →
          (f32Units (leftAt s i) - f32Units (leftAt u i)).natAbs * 32767 < 2 ^ 149 ∧
          (s.hdr.numChannels = 2 →
            (f32Units (rightAt s i) - f32Units (rightAt u i)).natAbs * 32767 < 2 ^ 149))

/-! ## The bus -/

/-- 20_memory R61, R62, R64, R66 and 60_exceptions R206: a transaction is legal exactly when it lies in an aperture with
that aperture's sizes and alignment; an illegal one is BUS_ERROR and a legal one completes, whether or not BUSY = 1. -/
def Obligations.BusErrorExactlyOnIllegalTransactions : Prop :=
  ∀ (s : State) (addr : Word) (size : Size) (v : Word), s.cfg.WellFormed →
    let a := addr.toNat
    let n := size.bytes
    let legal :=
      (a < 0x1000 ∧ n = 4 ∧ a % 4 = 0) ∨
      (0x40000000 ≤ a ∧ a + n ≤ 0x40000000 + s.cfg.bufBytes ∧ a % n = 0) ∨
      (0x80000000 ≤ a ∧ a + 4 ≤ 0x80000000 + 4 * s.cfg.maxFrames ∧ n = 4 ∧ a % 4 = 0) ∨
      (0xC0000000 ≤ a ∧ a + 4 ≤ 0xC0000000 + 4 * s.cfg.maxFrames ∧ n = 4 ∧ a % 4 = 0)
    (legal → (∃ t, transact (.read addr size) s = .next t) ∧ (∃ t, transact (.write addr size v) s = .next t)) ∧
    (¬legal → transact (.read addr size) s = .fault (.busError (.read addr size)) ∧
      transact (.write addr size v) s = .fault (.busError (.write addr size v)))

/-- 20_memory R69: a read has no side effect; only the model's record of the response and its draw counter change. -/
def Obligations.ReadsHaveNoSideEffects : Prop :=
  ∀ (s t : State) (addr : Word) (size : Size), transact (.read addr size) s = .next t →
    t = { s with reply := t.reply, draws := s.draws + 1 }

/-- 20_memory R65: reads and writes of the BYTE aperture are MemRead and MemWrite at the same offset, least significant
byte first; every other byte and everything else is as before. -/
def Obligations.ByteApertureIsLittleEndianMemory : Prop :=
  ∀ (s : State) (addr : Word) (size : Size) (v : Word) (a : Nat), s.cfg.WellFormed → s.pend = none →
    addr.toNat = 0x40000000 + a → a % size.bytes = 0 → a + size.bytes ≤ s.cfg.bufBytes →
    transact (.read addr size) s =
      .next { s with reply := .data (BitVec.ofNat 32 (memRead s a size.bytes)), draws := s.draws + 1 } ∧
    ∃ t, transact (.write addr size v) s = .next t ∧
      t = { s with byte := t.byte, reply := .done, draws := s.draws + 1 } ∧
      (∀ k, k < size.bytes → byteAt t (a + k) = v.extractLsb' (8 * k) 8) ∧
      (∀ b, b < a ∨ a + size.bytes ≤ b → Cells.find t.byte b = Cells.find s.byte b)

/-- 20_memory R66: a write to LEFT or RIGHT stores the pattern verbatim, a read returns it, and no other element or
register changes. -/
def Obligations.ChannelAperturesStoreVerbatim : Prop :=
  ∀ (s : State) (addr : Word) (v : Word) (i : Nat), s.cfg.WellFormed → s.pend = none → i < s.cfg.maxFrames →
    (addr.toNat = 0x80000000 + 4 * i →
      ∃ t u, transact (.write addr .b4 v) s = .next t ∧
        t = { s with left := t.left, reply := .done, draws := s.draws + 1 } ∧
        (∀ j, j ≠ i → Cells.find t.left j = Cells.find s.left j) ∧
        transact (.read addr .b4) t = .next u ∧ u.reply = .data v) ∧
    (addr.toNat = 0xC0000000 + 4 * i →
      ∃ t u, transact (.write addr .b4 v) s = .next t ∧
        t = { s with right := t.right, reply := .done, draws := s.draws + 1 } ∧
        (∀ j, j ≠ i → Cells.find t.right j = Cells.find s.right j) ∧
        transact (.read addr .b4) t = .next u ∧ u.reply = .data v)

/-- 10_state R37, R38, R39, R44, R45, R46 (access RW, R23): a write to an argument or length register changes that
register alone, and a read gives back what it holds; CHCTL keeps bit 0 only. -/
def Obligations.ArgumentRegistersAreReadWrite : Prop :=
  ∀ (s : State) (v : Word), s.pend = none →
    let after (t : State) : State := { t with reply := .done, draws := s.draws + 1 }
    let gives (t : State) (x : Word) : State := { t with reply := .data x, draws := t.draws + 1 }
    (transact (.write 0x00000020 .b4 v) s = .next (after { s with arg0 := v }) ∧
      transact (.read 0x00000020 .b4) s = .next (gives s s.arg0)) ∧
    (transact (.write 0x00000024 .b4 v) s = .next (after { s with arg1 := v }) ∧
      transact (.read 0x00000024 .b4) s = .next (gives s s.arg1)) ∧
    (transact (.write 0x00000028 .b4 v) s = .next (after { s with byteLen := v }) ∧
      transact (.read 0x00000028 .b4) s = .next (gives s s.byteLen)) ∧
    (transact (.write 0x0000002C .b4 v) s = .next (after { s with leftLen := v }) ∧
      transact (.read 0x0000002C .b4) s = .next (gives s s.leftLen)) ∧
    (transact (.write 0x00000030 .b4 v) s = .next (after { s with rightLen := v }) ∧
      transact (.read 0x00000030 .b4) s = .next (gives s s.rightLen)) ∧
    (transact (.write 0x00000034 .b4 v) s = .next (after { s with rPresent := v.getLsbD 0 }) ∧
      transact (.read 0x00000034 .b4) s = .next (gives s (if s.rPresent then 1 else 0)))

/-- 20_memory R63: writes to read-only registers and reserved offsets are ignored, reserved offsets and CMD read 0; none
of these is an error. -/
def Obligations.ReservedAndReadOnlyOffsetsIgnoreWrites : Prop :=
  ∀ (s : State) (addr : Word) (v : Word), s.pend = none → addr.toNat % 4 = 0 →
    ((addr.toNat < 0x008 ∨ (0x014 ≤ addr.toNat ∧ addr.toNat < 0x020) ∨
        (0x038 ≤ addr.toNat ∧ addr.toNat < 0x1000)) →
      transact (.write addr .b4 v) s = .next { s with reply := .done, draws := s.draws + 1 }) ∧
    ((addr.toNat = 0x010 ∨ addr.toNat = 0x03C ∨ (0x074 ≤ addr.toNat ∧ addr.toNat < 0x1000)) →
      transact (.read addr .b4) s = .next { s with reply := .data 0, draws := s.draws + 1 })

/-- 10_state R24, R25 and 20_memory R80: ID and VERSION always read their constants, busy or not. -/
def Obligations.IdAndVersionAreConstant : Prop :=
  ∀ s : State,
    transact (.read 0x00000000 .b4) s = .next { s with reply := .data 0x43564157, draws := s.draws + 1 } ∧
    transact (.read 0x00000004 .b4) s = .next { s with reply := .data 0x00000007, draws := s.draws + 1 }

/-- 10_state R32 (and R29, R30, R31): what STATUS reads as, busy or not, and that a write to it affects only bit 2,
which it clears when written 1. -/
def Obligations.StatusReadsAndWrites : Prop :=
  ∀ (s : State) (v : Word),
    let code := match s.docState with
      | .uninit => 0 | .loaded => 1 | .created => 2 | .populated => 3 | .destroyed => 4
    transact (.read 0x0000000C .b4) s = .next { s with
      reply := .data (BitVec.ofNat 32
        ((if s.pend = none then 0 else 1) + (if s.err then 2 else 0) + (if s.overrun then 4 else 0) + 16 * code))
      draws := s.draws + 1 } ∧
    transact (.write 0x0000000C .b4 v) s = .next { s with
      overrun := if v.getLsbD 2 then false else s.overrun, reply := .done, draws := s.draws + 1 }

/-- 10_state R34, R35, R36, R43: what the result registers read as while BUSY = 0, with the codes of 60_exceptions
R201. -/
def Obligations.ResultRegistersReadBack : Prop :=
  ∀ s : State, s.pend = none →
    let code := match s.errCode with
      | .none => 0x00 | .tooSmall => 0x01 | .notWav => 0x02 | .dataSizeMismatch => 0x03
      | .invalidBitsPerSample => 0x04 | .invalidNumChannels => 0x05 | .bufferLengthMismatch => 0x06
      | .sampleOutOfRange => 0x07 | .invalidSampleRate => 0x08 | .illegalCommand => 0x10 | .invalidState => 0x11
      | .capacityExceeded => 0x12
    let gives (x : Word) : State := { s with reply := .data x, draws := s.draws + 1 }
    transact (.read 0x00000014 .b4) s = .next (gives (BitVec.ofNat 32 (code + if s.errChan then 256 else 0))) ∧
    transact (.read 0x00000018 .b4) s = .next (gives s.errIndex) ∧
    transact (.read 0x0000001C .b4) s = .next (gives s.errValue) ∧
    transact (.read 0x00000038 .b4) s = .next (gives s.nSamples)

/-- 10_state R40, R22: the 13 header registers at their offsets, the u16 fields zero-extended. -/
def Obligations.HeaderRegistersReadBack : Prop :=
  ∀ s : State, s.pend = none →
    let gives (x : Nat) : State := { s with reply := .data (BitVec.ofNat 32 x), draws := s.draws + 1 }
    transact (.read 0x00000040 .b4) s = .next (gives s.hdr.chunkId.toNat) ∧
    transact (.read 0x00000044 .b4) s = .next (gives s.hdr.chunkSize.toNat) ∧
    transact (.read 0x00000048 .b4) s = .next (gives s.hdr.format.toNat) ∧
    transact (.read 0x0000004C .b4) s = .next (gives s.hdr.fmtChunkId.toNat) ∧
    transact (.read 0x00000050 .b4) s = .next (gives s.hdr.fmtChunkSize.toNat) ∧
    transact (.read 0x00000054 .b4) s = .next (gives s.hdr.audioFormat.toNat) ∧
    transact (.read 0x00000058 .b4) s = .next (gives s.hdr.numChannels.toNat) ∧
    transact (.read 0x0000005C .b4) s = .next (gives s.hdr.sampleRate.toNat) ∧
    transact (.read 0x00000060 .b4) s = .next (gives s.hdr.byteRate.toNat) ∧
    transact (.read 0x00000064 .b4) s = .next (gives s.hdr.blockAlign.toNat) ∧
    transact (.read 0x00000068 .b4) s = .next (gives s.hdr.bitsPerSample.toNat) ∧
    transact (.read 0x0000006C .b4) s = .next (gives s.hdr.dataChunkId.toNat) ∧
    transact (.read 0x00000070 .b4) s = .next (gives s.hdr.dataChunkSize.toNat)

/-- 10_state R26, R27, R28: a CTRL write with bit 1 = 0 writes bit 0 to MAGIC_AND and nothing else; CTRL reads
MAGIC_AND in bit 0 and 0 elsewhere, busy or not. -/
def Obligations.CtrlHoldsTheMagicPolicy : Prop :=
  ∀ (s : State) (v : Word),
    transact (.read 0x00000008 .b4) s =
      .next { s with reply := .data (if s.magicAnd then 1 else 0), draws := s.draws + 1 } ∧
    (s.pend = none → v.getLsbD 1 = false →
      transact (.write 0x00000008 .b4 v) s =
        .next { s with magicAnd := v.getLsbD 0, reply := .done, draws := s.draws + 1 })

/-- 10_state R33: a CMD write while BUSY = 0 latches the word and has no other effect on WAVC; every word may be
written. The latency it draws is the model's (log 3). -/
def Obligations.CmdWriteLatchesTheWord : Prop :=
  ∀ (s : State) (w : Word), s.pend = none →
    ∃ t, transact (.write 0x00000010 .b4 w) s = .next t ∧ t.busy = true ∧
      t = { s with pend := some w, wait := t.wait, reply := .done, draws := s.draws + 1 }

/-- 20_memory R79: while BUSY = 1 a legal write is dropped and sets OVERRUN, but for a write to STATUS, which is
performed, and a CTRL write with bit 1 set, which performs the soft reset; an illegal write is BUS_ERROR. -/
def Obligations.BusyWritesAreDropped : Prop :=
  ∀ (s : State) (addr : Word) (size : Size) (v w : Word), s.pend = some w →
    (HostAction.legal s.cfg (.bus (.write addr size v)) = true → addr ≠ 0x0000000C →
      (addr ≠ 0x00000008 ∨ v.getLsbD 1 = false) →
      transact (.write addr size v) s = .next { s with overrun := true, reply := .done, draws := s.draws + 1 }) ∧
    (transact (.write 0x0000000C .b4 v) s = .next { s with
      overrun := s.overrun && !v.getLsbD 2, reply := .done, draws := s.draws + 1 }) ∧
    (v.getLsbD 1 = true → transact (.write 0x00000008 .b4 v) s = .next { State.reset with
      byte := [], left := [], right := []
      cfg := s.cfg, inputs := s.inputs, reply := .done, draws := s.draws + 1 }) ∧
    (HostAction.legal s.cfg (.bus (.write addr size v)) = false →
      transact (.write addr size v) s = .fault (.busError (.write addr size v)))

/-- 70_reset R233, R234: the soft reset, a CTRL write with bit 1 set, whatever its other bits: every register at its
reset value and PEND none; the buffers kept when idle, unspecified when a command was aborted. -/
def Obligations.SoftResetIdleAndAborting : Prop :=
  ∀ (s : State) (v : Word), v.getLsbD 1 = true →
    (s.pend = none → transact (.write 0x00000008 .b4 v) s = .next { State.reset with
      byte := s.byte, left := s.left, right := s.right
      cfg := s.cfg, inputs := s.inputs, reply := .done, draws := s.draws + 1 }) ∧
    (∀ w, s.pend = some w → transact (.write 0x00000008 .b4 v) s = .next { State.reset with
      byte := [], left := [], right := []
      cfg := s.cfg, inputs := s.inputs, reply := .done, draws := s.draws + 1 })

/-- 70_reset R230, R232: hardware reset from any state gives every register its reset value, discards a latched command
with no completion, and leaves every buffer location unspecified. -/
def Obligations.HardwareResetFromAnyState : Prop :=
  ∀ s : State, hostAction .hardReset s =
    .next { State.reset with cfg := s.cfg, inputs := s.inputs, draws := s.draws + 1 }

/-- 70_reset R231: the reset value of every register as the host reads it, of DOC_STATE and of PEND; every buffer
location is unspecified. -/
def Obligations.ResetValues : Prop :=
  (∀ off r, Reg.at? off = some r →
    readReg State.reset r = if off = 0x000 then 0x43564157 else if off = 0x004 then 0x00000007 else 0) ∧
  State.reset.docState = .uninit ∧ State.reset.pend = none ∧
  (∀ a, Cells.find State.reset.byte a = none ∧ Cells.find State.reset.left a = none ∧
    Cells.find State.reset.right a = none)

/-- 30_encoding R104: `POLL` reads STATUS again and again while bit 0 reads 1, and changes nothing else. -/
def Obligations.PollRepeatsWhileBusy : Prop :=
  ∀ s : State,
    (s.pend = none → hostAction .poll s =
      .next { s with reply := .data s.statusWord, draws := s.draws + 1 } ∧ s.statusWord.getLsbD 0 = false) ∧
    (∀ w, s.pend = some w → hostAction .poll s =
      .next { s with inputs := .poll :: s.inputs, reply := .data s.statusWord, draws := s.draws + 1 } ∧
      s.statusWord.getLsbD 0 = true)

/-! ## Invariants -/

/-- The invariant holds right after reset. The reset parameters are the model's choice (log 4). -/
def Obligations.InvariantAtReset : Prop := State.reset.Inv

/-- 10_state R51 (with R30, R34 to R36, R48, R49, 40 R133 and 41 R145): every step that answers a next state keeps the
invariant, from every state that has it. R51 states the document invariants only while PEND = none. That they hold while
a command is pending too is the model's inference (DEDUCED, log 16): latching changes no register of the document, and
until the command's one atomic step (20_memory R72) every other host write but a reset is dropped (R79). -/
def Obligations.InvariantKeptByEveryStep : Prop :=
  ∀ s t : State, s.Inv → step s = .next t → t.Inv

/-- 10_state R41 (header registers), R43 (NSAMPLES) and R47 (DOC_STATE), with the resets of 70_reset R230, R231 and R233:
in a step these change only when the engine runs a LOAD, CREATE, SET_DATA or DESTROY that completes with NONE, or when
the host's action is a reset, which clears them and PEND. The host's action is served when no command is latched or the
latency is not over (log 3). -/
def Obligations.OnlyCommandsAndResetsChangeTheDocument : Prop :=
  ∀ s t : State, step s = .next t →
    (t.hdr = s.hdr ∧ t.nSamples = s.nSamples ∧ t.docState = s.docState) ∨
    (∃ w i, s.pend = some w ∧ s.wait = 0 ∧ decode w = .ok i ∧
      (i = .load ∨ i = .create ∨ i = .setData ∨ i = .destroy) ∧ exec i s = .next t ∧ t.errCode = .none) ∨
    (∃ a rest, (s.pend = none ∨ s.wait ≠ 0) ∧ s.inputs = a :: rest ∧ HostAction.resets s.cfg a = true ∧
      t.inputs = rest ∧ t.docState = .uninit ∧ t.hdr = Header.zero ∧ t.nSamples = 0 ∧ t.pend = none)
end

