-- ==== Sys2Proof/Laws/State.lean ====
section
/-! SUPPORT. One lemma per field per named update of State: what the field holds afterwards. -/

namespace Sys2Proof.Machine

variable (s : State)


@[simp] theorem setOverrun_magicAnd : s.setOverrun.magicAnd = s.magicAnd := rfl
@[simp] theorem setOverrun_err : s.setOverrun.err = s.err := rfl
@[simp] theorem setOverrun_overrun : s.setOverrun.overrun = true := rfl
@[simp] theorem setOverrun_docState : s.setOverrun.docState = s.docState := rfl
@[simp] theorem setOverrun_errCode : s.setOverrun.errCode = s.errCode := rfl
@[simp] theorem setOverrun_errChan : s.setOverrun.errChan = s.errChan := rfl
@[simp] theorem setOverrun_errIndex : s.setOverrun.errIndex = s.errIndex := rfl
@[simp] theorem setOverrun_errValue : s.setOverrun.errValue = s.errValue := rfl
@[simp] theorem setOverrun_arg0 : s.setOverrun.arg0 = s.arg0 := rfl
@[simp] theorem setOverrun_arg1 : s.setOverrun.arg1 = s.arg1 := rfl
@[simp] theorem setOverrun_byteLen : s.setOverrun.byteLen = s.byteLen := rfl
@[simp] theorem setOverrun_leftLen : s.setOverrun.leftLen = s.leftLen := rfl
@[simp] theorem setOverrun_rightLen : s.setOverrun.rightLen = s.rightLen := rfl
@[simp] theorem setOverrun_rPresent : s.setOverrun.rPresent = s.rPresent := rfl
@[simp] theorem setOverrun_nSamples : s.setOverrun.nSamples = s.nSamples := rfl
@[simp] theorem setOverrun_hdr : s.setOverrun.hdr = s.hdr := rfl
@[simp] theorem setOverrun_byte : s.setOverrun.byte = s.byte := rfl
@[simp] theorem setOverrun_left : s.setOverrun.left = s.left := rfl
@[simp] theorem setOverrun_right : s.setOverrun.right = s.right := rfl
@[simp] theorem setOverrun_pend : s.setOverrun.pend = s.pend := rfl
@[simp] theorem setOverrun_cfg : s.setOverrun.cfg = s.cfg := rfl
@[simp] theorem setOverrun_inputs : s.setOverrun.inputs = s.inputs := rfl
@[simp] theorem setOverrun_wait : s.setOverrun.wait = s.wait := rfl
@[simp] theorem setOverrun_draws : s.setOverrun.draws = s.draws := rfl
@[simp] theorem setOverrun_reply : s.setOverrun.reply = s.reply := rfl


@[simp] theorem writeStatus_magicAnd (v : Word) : (s.writeStatus v).magicAnd = s.magicAnd := rfl
@[simp] theorem writeStatus_err (v : Word) : (s.writeStatus v).err = s.err := rfl
@[simp] theorem writeStatus_overrun (v : Word) : (s.writeStatus v).overrun = (s.overrun && !v.getLsbD 2) := rfl
@[simp] theorem writeStatus_docState (v : Word) : (s.writeStatus v).docState = s.docState := rfl
@[simp] theorem writeStatus_errCode (v : Word) : (s.writeStatus v).errCode = s.errCode := rfl
@[simp] theorem writeStatus_errChan (v : Word) : (s.writeStatus v).errChan = s.errChan := rfl
@[simp] theorem writeStatus_errIndex (v : Word) : (s.writeStatus v).errIndex = s.errIndex := rfl
@[simp] theorem writeStatus_errValue (v : Word) : (s.writeStatus v).errValue = s.errValue := rfl
@[simp] theorem writeStatus_arg0 (v : Word) : (s.writeStatus v).arg0 = s.arg0 := rfl
@[simp] theorem writeStatus_arg1 (v : Word) : (s.writeStatus v).arg1 = s.arg1 := rfl
@[simp] theorem writeStatus_byteLen (v : Word) : (s.writeStatus v).byteLen = s.byteLen := rfl
@[simp] theorem writeStatus_leftLen (v : Word) : (s.writeStatus v).leftLen = s.leftLen := rfl
@[simp] theorem writeStatus_rightLen (v : Word) : (s.writeStatus v).rightLen = s.rightLen := rfl
@[simp] theorem writeStatus_rPresent (v : Word) : (s.writeStatus v).rPresent = s.rPresent := rfl
@[simp] theorem writeStatus_nSamples (v : Word) : (s.writeStatus v).nSamples = s.nSamples := rfl
@[simp] theorem writeStatus_hdr (v : Word) : (s.writeStatus v).hdr = s.hdr := rfl
@[simp] theorem writeStatus_byte (v : Word) : (s.writeStatus v).byte = s.byte := rfl
@[simp] theorem writeStatus_left (v : Word) : (s.writeStatus v).left = s.left := rfl
@[simp] theorem writeStatus_right (v : Word) : (s.writeStatus v).right = s.right := rfl
@[simp] theorem writeStatus_pend (v : Word) : (s.writeStatus v).pend = s.pend := rfl
@[simp] theorem writeStatus_cfg (v : Word) : (s.writeStatus v).cfg = s.cfg := rfl
@[simp] theorem writeStatus_inputs (v : Word) : (s.writeStatus v).inputs = s.inputs := rfl
@[simp] theorem writeStatus_wait (v : Word) : (s.writeStatus v).wait = s.wait := rfl
@[simp] theorem writeStatus_draws (v : Word) : (s.writeStatus v).draws = s.draws := rfl
@[simp] theorem writeStatus_reply (v : Word) : (s.writeStatus v).reply = s.reply := rfl


@[simp] theorem latch_magicAnd (w : Word) : (s.latch w).magicAnd = s.magicAnd := rfl
@[simp] theorem latch_err (w : Word) : (s.latch w).err = s.err := rfl
@[simp] theorem latch_overrun (w : Word) : (s.latch w).overrun = s.overrun := rfl
@[simp] theorem latch_docState (w : Word) : (s.latch w).docState = s.docState := rfl
@[simp] theorem latch_errCode (w : Word) : (s.latch w).errCode = s.errCode := rfl
@[simp] theorem latch_errChan (w : Word) : (s.latch w).errChan = s.errChan := rfl
@[simp] theorem latch_errIndex (w : Word) : (s.latch w).errIndex = s.errIndex := rfl
@[simp] theorem latch_errValue (w : Word) : (s.latch w).errValue = s.errValue := rfl
@[simp] theorem latch_arg0 (w : Word) : (s.latch w).arg0 = s.arg0 := rfl
@[simp] theorem latch_arg1 (w : Word) : (s.latch w).arg1 = s.arg1 := rfl
@[simp] theorem latch_byteLen (w : Word) : (s.latch w).byteLen = s.byteLen := rfl
@[simp] theorem latch_leftLen (w : Word) : (s.latch w).leftLen = s.leftLen := rfl
@[simp] theorem latch_rightLen (w : Word) : (s.latch w).rightLen = s.rightLen := rfl
@[simp] theorem latch_rPresent (w : Word) : (s.latch w).rPresent = s.rPresent := rfl
@[simp] theorem latch_nSamples (w : Word) : (s.latch w).nSamples = s.nSamples := rfl
@[simp] theorem latch_hdr (w : Word) : (s.latch w).hdr = s.hdr := rfl
@[simp] theorem latch_byte (w : Word) : (s.latch w).byte = s.byte := rfl
@[simp] theorem latch_left (w : Word) : (s.latch w).left = s.left := rfl
@[simp] theorem latch_right (w : Word) : (s.latch w).right = s.right := rfl
@[simp] theorem latch_pend (w : Word) : (s.latch w).pend = some w := rfl
@[simp] theorem latch_cfg (w : Word) : (s.latch w).cfg = s.cfg := rfl
@[simp] theorem latch_inputs (w : Word) : (s.latch w).inputs = s.inputs := rfl
@[simp] theorem latch_wait (w : Word) : (s.latch w).wait = Config.latency s.draws := rfl
@[simp] theorem latch_draws (w : Word) : (s.latch w).draws = s.draws := rfl
@[simp] theorem latch_reply (w : Word) : (s.latch w).reply = s.reply := rfl


@[simp] theorem waited_magicAnd : s.waited.magicAnd = s.magicAnd := rfl
@[simp] theorem waited_err : s.waited.err = s.err := rfl
@[simp] theorem waited_overrun : s.waited.overrun = s.overrun := rfl
@[simp] theorem waited_docState : s.waited.docState = s.docState := rfl
@[simp] theorem waited_errCode : s.waited.errCode = s.errCode := rfl
@[simp] theorem waited_errChan : s.waited.errChan = s.errChan := rfl
@[simp] theorem waited_errIndex : s.waited.errIndex = s.errIndex := rfl
@[simp] theorem waited_errValue : s.waited.errValue = s.errValue := rfl
@[simp] theorem waited_arg0 : s.waited.arg0 = s.arg0 := rfl
@[simp] theorem waited_arg1 : s.waited.arg1 = s.arg1 := rfl
@[simp] theorem waited_byteLen : s.waited.byteLen = s.byteLen := rfl
@[simp] theorem waited_leftLen : s.waited.leftLen = s.leftLen := rfl
@[simp] theorem waited_rightLen : s.waited.rightLen = s.rightLen := rfl
@[simp] theorem waited_rPresent : s.waited.rPresent = s.rPresent := rfl
@[simp] theorem waited_nSamples : s.waited.nSamples = s.nSamples := rfl
@[simp] theorem waited_hdr : s.waited.hdr = s.hdr := rfl
@[simp] theorem waited_byte : s.waited.byte = s.byte := rfl
@[simp] theorem waited_left : s.waited.left = s.left := rfl
@[simp] theorem waited_right : s.waited.right = s.right := rfl
@[simp] theorem waited_pend : s.waited.pend = s.pend := rfl
@[simp] theorem waited_cfg : s.waited.cfg = s.cfg := rfl
@[simp] theorem waited_inputs : s.waited.inputs = s.inputs := rfl
@[simp] theorem waited_wait : s.waited.wait = s.wait - 1 := rfl
@[simp] theorem waited_draws : s.waited.draws = s.draws := rfl
@[simp] theorem waited_reply : s.waited.reply = s.reply := rfl


@[simp] theorem resetRegisters_magicAnd : s.resetRegisters.magicAnd = false := rfl
@[simp] theorem resetRegisters_err : s.resetRegisters.err = false := rfl
@[simp] theorem resetRegisters_overrun : s.resetRegisters.overrun = false := rfl
@[simp] theorem resetRegisters_docState : s.resetRegisters.docState = .uninit := rfl
@[simp] theorem resetRegisters_errCode : s.resetRegisters.errCode = .none := rfl
@[simp] theorem resetRegisters_errChan : s.resetRegisters.errChan = false := rfl
@[simp] theorem resetRegisters_errIndex : s.resetRegisters.errIndex = 0 := rfl
@[simp] theorem resetRegisters_errValue : s.resetRegisters.errValue = 0 := rfl
@[simp] theorem resetRegisters_arg0 : s.resetRegisters.arg0 = 0 := rfl
@[simp] theorem resetRegisters_arg1 : s.resetRegisters.arg1 = 0 := rfl
@[simp] theorem resetRegisters_byteLen : s.resetRegisters.byteLen = 0 := rfl
@[simp] theorem resetRegisters_leftLen : s.resetRegisters.leftLen = 0 := rfl
@[simp] theorem resetRegisters_rightLen : s.resetRegisters.rightLen = 0 := rfl
@[simp] theorem resetRegisters_rPresent : s.resetRegisters.rPresent = false := rfl
@[simp] theorem resetRegisters_nSamples : s.resetRegisters.nSamples = 0 := rfl
@[simp] theorem resetRegisters_hdr : s.resetRegisters.hdr = Header.zero := rfl
@[simp] theorem resetRegisters_byte : s.resetRegisters.byte = s.byte := rfl
@[simp] theorem resetRegisters_left : s.resetRegisters.left = s.left := rfl
@[simp] theorem resetRegisters_right : s.resetRegisters.right = s.right := rfl
@[simp] theorem resetRegisters_pend : s.resetRegisters.pend = none := rfl
@[simp] theorem resetRegisters_cfg : s.resetRegisters.cfg = s.cfg := rfl
@[simp] theorem resetRegisters_inputs : s.resetRegisters.inputs = s.inputs := rfl
@[simp] theorem resetRegisters_wait : s.resetRegisters.wait = 0 := rfl
@[simp] theorem resetRegisters_draws : s.resetRegisters.draws = s.draws := rfl
@[simp] theorem resetRegisters_reply : s.resetRegisters.reply = s.reply := rfl


@[simp] theorem forgetBuffers_magicAnd : s.forgetBuffers.magicAnd = s.magicAnd := rfl
@[simp] theorem forgetBuffers_err : s.forgetBuffers.err = s.err := rfl
@[simp] theorem forgetBuffers_overrun : s.forgetBuffers.overrun = s.overrun := rfl
@[simp] theorem forgetBuffers_docState : s.forgetBuffers.docState = s.docState := rfl
@[simp] theorem forgetBuffers_errCode : s.forgetBuffers.errCode = s.errCode := rfl
@[simp] theorem forgetBuffers_errChan : s.forgetBuffers.errChan = s.errChan := rfl
@[simp] theorem forgetBuffers_errIndex : s.forgetBuffers.errIndex = s.errIndex := rfl
@[simp] theorem forgetBuffers_errValue : s.forgetBuffers.errValue = s.errValue := rfl
@[simp] theorem forgetBuffers_arg0 : s.forgetBuffers.arg0 = s.arg0 := rfl
@[simp] theorem forgetBuffers_arg1 : s.forgetBuffers.arg1 = s.arg1 := rfl
@[simp] theorem forgetBuffers_byteLen : s.forgetBuffers.byteLen = s.byteLen := rfl
@[simp] theorem forgetBuffers_leftLen : s.forgetBuffers.leftLen = s.leftLen := rfl
@[simp] theorem forgetBuffers_rightLen : s.forgetBuffers.rightLen = s.rightLen := rfl
@[simp] theorem forgetBuffers_rPresent : s.forgetBuffers.rPresent = s.rPresent := rfl
@[simp] theorem forgetBuffers_nSamples : s.forgetBuffers.nSamples = s.nSamples := rfl
@[simp] theorem forgetBuffers_hdr : s.forgetBuffers.hdr = s.hdr := rfl
@[simp] theorem forgetBuffers_byte : s.forgetBuffers.byte = [] := rfl
@[simp] theorem forgetBuffers_left : s.forgetBuffers.left = [] := rfl
@[simp] theorem forgetBuffers_right : s.forgetBuffers.right = [] := rfl
@[simp] theorem forgetBuffers_pend : s.forgetBuffers.pend = s.pend := rfl
@[simp] theorem forgetBuffers_cfg : s.forgetBuffers.cfg = s.cfg := rfl
@[simp] theorem forgetBuffers_inputs : s.forgetBuffers.inputs = s.inputs := rfl
@[simp] theorem forgetBuffers_wait : s.forgetBuffers.wait = s.wait := rfl
@[simp] theorem forgetBuffers_draws : s.forgetBuffers.draws = s.draws := rfl
@[simp] theorem forgetBuffers_reply : s.forgetBuffers.reply = s.reply := rfl


@[simp] theorem respond_magicAnd (r : Reply) : (s.respond r).magicAnd = s.magicAnd := rfl
@[simp] theorem respond_err (r : Reply) : (s.respond r).err = s.err := rfl
@[simp] theorem respond_overrun (r : Reply) : (s.respond r).overrun = s.overrun := rfl
@[simp] theorem respond_docState (r : Reply) : (s.respond r).docState = s.docState := rfl
@[simp] theorem respond_errCode (r : Reply) : (s.respond r).errCode = s.errCode := rfl
@[simp] theorem respond_errChan (r : Reply) : (s.respond r).errChan = s.errChan := rfl
@[simp] theorem respond_errIndex (r : Reply) : (s.respond r).errIndex = s.errIndex := rfl
@[simp] theorem respond_errValue (r : Reply) : (s.respond r).errValue = s.errValue := rfl
@[simp] theorem respond_arg0 (r : Reply) : (s.respond r).arg0 = s.arg0 := rfl
@[simp] theorem respond_arg1 (r : Reply) : (s.respond r).arg1 = s.arg1 := rfl
@[simp] theorem respond_byteLen (r : Reply) : (s.respond r).byteLen = s.byteLen := rfl
@[simp] theorem respond_leftLen (r : Reply) : (s.respond r).leftLen = s.leftLen := rfl
@[simp] theorem respond_rightLen (r : Reply) : (s.respond r).rightLen = s.rightLen := rfl
@[simp] theorem respond_rPresent (r : Reply) : (s.respond r).rPresent = s.rPresent := rfl
@[simp] theorem respond_nSamples (r : Reply) : (s.respond r).nSamples = s.nSamples := rfl
@[simp] theorem respond_hdr (r : Reply) : (s.respond r).hdr = s.hdr := rfl
@[simp] theorem respond_byte (r : Reply) : (s.respond r).byte = s.byte := rfl
@[simp] theorem respond_left (r : Reply) : (s.respond r).left = s.left := rfl
@[simp] theorem respond_right (r : Reply) : (s.respond r).right = s.right := rfl
@[simp] theorem respond_pend (r : Reply) : (s.respond r).pend = s.pend := rfl
@[simp] theorem respond_cfg (r : Reply) : (s.respond r).cfg = s.cfg := rfl
@[simp] theorem respond_inputs (r : Reply) : (s.respond r).inputs = s.inputs := rfl
@[simp] theorem respond_wait (r : Reply) : (s.respond r).wait = s.wait := rfl
@[simp] theorem respond_draws (r : Reply) : (s.respond r).draws = s.draws + 1 := rfl
@[simp] theorem respond_reply (r : Reply) : (s.respond r).reply = r := rfl


@[simp] theorem complete_magicAnd (c : ErrCode) (info : SampleInfo) : (complete c info s).magicAnd = s.magicAnd := rfl
@[simp] theorem complete_err (c : ErrCode) (info : SampleInfo) : (complete c info s).err = (c != .none) := rfl
@[simp] theorem complete_overrun (c : ErrCode) (info : SampleInfo) : (complete c info s).overrun = s.overrun := rfl
@[simp] theorem complete_docState (c : ErrCode) (info : SampleInfo) : (complete c info s).docState = s.docState := rfl
@[simp] theorem complete_errCode (c : ErrCode) (info : SampleInfo) : (complete c info s).errCode = c := rfl
@[simp] theorem complete_errChan (c : ErrCode) (info : SampleInfo) : (complete c info s).errChan = (if c = .sampleOutOfRange then info.chan else false) := rfl
@[simp] theorem complete_errIndex (c : ErrCode) (info : SampleInfo) : (complete c info s).errIndex = (if c = .sampleOutOfRange then info.index else 0) := rfl
@[simp] theorem complete_errValue (c : ErrCode) (info : SampleInfo) : (complete c info s).errValue = (if c = .sampleOutOfRange then info.value else 0) := rfl
@[simp] theorem complete_arg0 (c : ErrCode) (info : SampleInfo) : (complete c info s).arg0 = s.arg0 := rfl
@[simp] theorem complete_arg1 (c : ErrCode) (info : SampleInfo) : (complete c info s).arg1 = s.arg1 := rfl
@[simp] theorem complete_byteLen (c : ErrCode) (info : SampleInfo) : (complete c info s).byteLen = s.byteLen := rfl
@[simp] theorem complete_leftLen (c : ErrCode) (info : SampleInfo) : (complete c info s).leftLen = s.leftLen := rfl
@[simp] theorem complete_rightLen (c : ErrCode) (info : SampleInfo) : (complete c info s).rightLen = s.rightLen := rfl
@[simp] theorem complete_rPresent (c : ErrCode) (info : SampleInfo) : (complete c info s).rPresent = s.rPresent := rfl
@[simp] theorem complete_nSamples (c : ErrCode) (info : SampleInfo) : (complete c info s).nSamples = s.nSamples := rfl
@[simp] theorem complete_hdr (c : ErrCode) (info : SampleInfo) : (complete c info s).hdr = s.hdr := rfl
@[simp] theorem complete_byte (c : ErrCode) (info : SampleInfo) : (complete c info s).byte = s.byte := rfl
@[simp] theorem complete_left (c : ErrCode) (info : SampleInfo) : (complete c info s).left = s.left := rfl
@[simp] theorem complete_right (c : ErrCode) (info : SampleInfo) : (complete c info s).right = s.right := rfl
@[simp] theorem complete_pend (c : ErrCode) (info : SampleInfo) : (complete c info s).pend = none := rfl
@[simp] theorem complete_cfg (c : ErrCode) (info : SampleInfo) : (complete c info s).cfg = s.cfg := rfl
@[simp] theorem complete_inputs (c : ErrCode) (info : SampleInfo) : (complete c info s).inputs = s.inputs := rfl
@[simp] theorem complete_wait (c : ErrCode) (info : SampleInfo) : (complete c info s).wait = 0 := rfl
@[simp] theorem complete_draws (c : ErrCode) (info : SampleInfo) : (complete c info s).draws = s.draws + 1 := rfl
@[simp] theorem complete_reply (c : ErrCode) (info : SampleInfo) : (complete c info s).reply = s.reply := rfl

theorem hardReset_eq :
    s.hardReset = { s.resetRegisters.forgetBuffers with draws := s.draws + 1, reply := .none } := rfl

/-- The soft reset of an idle machine keeps the buffers (70_reset R233). -/
@[simp] theorem softReset_idle (h : s.pend = none) : s.softReset = s.resetRegisters := by
  simp [State.softReset, State.busy, h]

/-- The soft reset of a busy machine aborts the command and forgets the buffers (70_reset R234). -/
@[simp] theorem softReset_busy {w : Word} (h : s.pend = some w) :
    s.softReset = s.resetRegisters.forgetBuffers := by
  simp [State.softReset, State.busy, h]

/-- Whatever the soft reset does to the buffers, the rest is `resetRegisters`. -/
theorem softReset_cases : s.softReset = s.resetRegisters ∨ s.softReset = s.resetRegisters.forgetBuffers := by
  unfold State.softReset
  split
  · exact .inr rfl
  · exact .inl rfl

@[simp] theorem busy_iff : s.busy = true ↔ ∃ w, s.pend = some w := by
  simp [State.busy, Option.isSome_iff_exists]

@[simp] theorem not_busy_iff : s.busy = false ↔ s.pend = none := by
  simp [State.busy]

end Sys2Proof.Machine
end

