-- ==== Sys2Proof/Laws/Cells.lean ====
section
/-! SUPPORT. The laws of buffer cells: read after write, writes leave other cells alone, and every operation keeps the canonical form and the capacity. -/

namespace Sys2Proof.Machine

variable {α : Type}

@[simp] theorem Cells.find_nil (k : Nat) : Cells.find ([] : Cells α) k = none := rfl

theorem Cells.find_cons (j : Nat) (x : α) (rest : Cells α) (k : Nat) :
    Cells.find ((j, x) :: rest) k = if j = k then some x else Cells.find rest k := rfl

/-- Read after write, at every cell. -/
theorem Cells.find_put (m : Cells α) (k : Nat) (v : α) (j : Nat) :
    Cells.find (Cells.put m k v) j = if j = k then some v else Cells.find m j := by
  induction m with
  | nil => simp [Cells.put, Cells.find, eq_comm]
  | cons c rest ih =>
    obtain ⟨i, x⟩ := c
    simp only [Cells.put]
    split
    · by_cases h : j = k
      · simp [Cells.find, h]
      · simp [Cells.find, h, Ne.symm h]
    · split
      · subst_vars
        by_cases h : j = i
        · simp [Cells.find, h]
        · simp [Cells.find, h, Ne.symm h]
      · simp only [Cells.find, ih]
        by_cases h : j = k
        · subst h
          have : i ≠ j := by omega
          simp [this]
        · simp [h]

@[simp] theorem Cells.find_put_self (m : Cells α) (k : Nat) (v : α) : Cells.find (Cells.put m k v) k = some v := by
  simp [Cells.find_put]

theorem Cells.find_put_ne (m : Cells α) {k j : Nat} (v : α) (h : j ≠ k) :
    Cells.find (Cells.put m k v) j = Cells.find m j := by
  simp [Cells.find_put, h]

/-- The cells listed after a write are the one written and cells listed before. -/
theorem Cells.mem_put {m : Cells α} {k : Nat} {v : α} {c : Nat × α} (h : c ∈ Cells.put m k v) :
    c = (k, v) ∨ c ∈ m := by
  induction m with
  | nil => simpa [Cells.put] using h
  | cons d rest ih =>
    obtain ⟨i, x⟩ := d
    simp only [Cells.put] at h
    split at h
    · simpa using h
    · split at h
      · rcases List.mem_cons.mp h with h | h
        · exact .inl h
        · exact .inr (List.mem_cons_of_mem _ h)
      · rcases List.mem_cons.mp h with h | h
        · exact .inr (by simp [h])
        · exact (ih h).imp id (List.mem_cons_of_mem _)

/-- A write keeps the canonical form. -/
theorem Cells.rising_put {m : Cells α} (h : Cells.Rising m) (k : Nat) (v : α) : Cells.Rising (Cells.put m k v) := by
  induction m with
  | nil => simp [Cells.put, Cells.Rising]
  | cons c rest ih =>
    obtain ⟨i, x⟩ := c
    have hr : Cells.Rising rest := by
      simp only [Cells.Rising, List.map_cons, List.pairwise_cons] at h
      exact h.2
    have hi : ∀ d ∈ rest, i < d.1 := by
      simp only [Cells.Rising, List.map_cons, List.pairwise_cons, List.mem_map] at h
      exact fun d hd => h.1 d.1 ⟨d, hd, rfl⟩
    simp only [Cells.put]
    split
    · simp only [Cells.Rising, List.map_cons, List.pairwise_cons, List.mem_cons, List.mem_map] at h ⊢
      refine ⟨?_, h⟩
      rintro a (rfl | ⟨d, hd, rfl⟩)
      · assumption
      · have := hi d hd
        omega
    · split
      · subst_vars
        simpa only [Cells.Rising, List.map_cons] using h
      · have := ih hr
        simp only [Cells.Rising, List.map_cons, List.pairwise_cons, List.mem_map] at this ⊢
        refine ⟨?_, this⟩
        rintro a ⟨d, hd, rfl⟩
        rcases Cells.mem_put hd with rfl | hd
        · simp only; omega
        · exact hi d hd

/-- A write inside the capacity keeps every cell inside it. -/
theorem Cells.within_put {m : Cells α} {cap : Nat} (h : Cells.Within cap m) {k : Nat} (hk : k < cap) (v : α) :
    Cells.Within cap (Cells.put m k v) := by
  intro c hc
  rcases Cells.mem_put hc with rfl | hc
  · exact hk
  · exact h c hc

/-- A run of writes `f i` to the cells `0 … n-1`: each reads back, every other cell is as before. -/
theorem Cells.find_foldl_put (f : Nat → α) (m : Cells α) (n j : Nat) :
    Cells.find ((List.range n).foldl (fun m i => Cells.put m i (f i)) m) j =
      if j < n then some (f j) else Cells.find m j := by
  induction n with
  | zero => simp
  | succ n ih =>
    rw [List.range_succ, List.foldl_append, List.foldl_cons, List.foldl_nil, Cells.find_put, ih]
    by_cases h : j = n
    · simp [h]
    · by_cases h' : j < n
      · simp [h, h', Nat.lt_succ_of_lt h']
      · have : ¬ j < n + 1 := by omega
        simp [h, h', this]

/-- A run of writes keeps the canonical form. -/
theorem Cells.rising_foldl_put (f : Nat → α) {m : Cells α} (h : Cells.Rising m) (n : Nat) :
    Cells.Rising ((List.range n).foldl (fun m i => Cells.put m i (f i)) m) := by
  induction n with
  | zero => simpa using h
  | succ n ih =>
    rw [List.range_succ, List.foldl_append, List.foldl_cons, List.foldl_nil]
    exact Cells.rising_put ih _ _

/-- A run of writes to the first `n` cells stays inside a capacity of at least `n`. -/
theorem Cells.within_foldl_put (f : Nat → α) {m : Cells α} {cap : Nat} (h : Cells.Within cap m) {n : Nat}
    (hn : n ≤ cap) : Cells.Within cap ((List.range n).foldl (fun m i => Cells.put m i (f i)) m) := by
  induction n with
  | zero => simpa using h
  | succ n ih =>
    rw [List.range_succ, List.foldl_append, List.foldl_cons, List.foldl_nil]
    exact Cells.within_put (ih (by omega)) (by omega) _

end Sys2Proof.Machine
end

