-- ==== Sys2Proof/Laws/Memory.lean ====
section
/-! SUPPORT. The laws of MemRead and MemWrite (00_scope R11): what one write changes, what a read after it returns, and that the canonical form and the capacity are kept. -/

namespace Sys2Proof.Machine

/-- Every byte after a MemWrite: byte k of the value inside the `n` bytes written, as before outside. -/
theorem find_memWrite (m : Memory) (a n v b : Nat) :
    Cells.find (memWrite m a n v) b =
      if a ≤ b ∧ b < a + n then some (BitVec.ofNat 8 (v / 256 ^ (b - a))) else Cells.find m b := by
  induction n generalizing m a v with
  | zero =>
    have : ¬(a ≤ b ∧ b < a + 0) := by omega
    rw [if_neg this, memWrite]
  | succ n ih =>
    rw [memWrite, ih, Cells.find_put]
    by_cases h1 : a + 1 ≤ b ∧ b < a + 1 + n
    · have h2 : a ≤ b ∧ b < a + (n + 1) := by omega
      have h3 : b - a = (b - (a + 1)) + 1 := by omega
      rw [if_pos h1, if_pos h2, h3, pow_succ', Nat.div_div_eq_div_mul]
    · rw [if_neg h1]
      by_cases h2 : b = a
      · subst h2
        simp
      · have : ¬(a ≤ b ∧ b < a + (n + 1)) := by omega
        rw [if_neg h2, if_neg this]

/-- A MemWrite leaves every byte outside the `n` bytes it writes alone. -/
theorem find_memWrite_outside {a n b : Nat} (m : Memory) (v : Nat) (h : b < a ∨ a + n ≤ b) :
    Cells.find (memWrite m a n v) b = Cells.find m b := by
  rw [find_memWrite, if_neg (by omega)]

/-- A MemWrite keeps the canonical form. -/
theorem wf_memWrite {m : Memory} (h : Memory.wf m) (a n v : Nat) : Memory.wf (memWrite m a n v) := by
  induction n generalizing m a v with
  | zero => exact h
  | succ n ih => exact ih (Cells.rising_put h _ _) _ _

/-- A MemWrite inside the capacity keeps every cell inside it. -/
theorem within_memWrite {m : Memory} {cap a n : Nat} (h : Cells.Within cap m) (hn : a + n ≤ cap) (v : Nat) :
    Cells.Within cap (memWrite m a n v) := by
  induction n generalizing m a v with
  | zero => exact h
  | succ n ih => exact ih (Cells.within_put h (by omega) _) (by omega) _

theorem byteAt_of_find {s : State} {a : Nat} {v : Byte} (h : Cells.find s.byte a = some v) : byteAt s a = v := by
  simp [byteAt, h]

theorem leftAt_of_find {s : State} {i : Nat} {v : Word} (h : Cells.find s.left i = some v) : leftAt s i = v := by
  simp [leftAt, h]

theorem rightAt_of_find {s : State} {i : Nat} {v : Word} (h : Cells.find s.right i = some v) : rightAt s i = v := by
  simp [rightAt, h]

/-- MemRead depends on the bytes it reads only. -/
theorem memRead_congr {s t : State} {a n : Nat} (h : ∀ b, a ≤ b → b < a + n → byteAt s b = byteAt t b) :
    memRead s a n = memRead t a n := by
  induction n generalizing a with
  | zero => rfl
  | succ n ih =>
    rw [memRead, memRead, h a (by omega) (by omega), ih fun b h1 h2 => h b (by omega) (by omega)]

/-- An n-byte integer is below 256^n. -/
theorem memRead_lt (s : State) (a n : Nat) : memRead s a n < 256 ^ n := by
  induction n generalizing a with
  | zero => simp [memRead]
  | succ n ih =>
    have h1 := ih (a + 1)
    have h2 := (byteAt s a).isLt
    rw [memRead, pow_succ]
    omega

/-- If the bytes at `a` hold the little-endian bytes of `v`, MemRead returns `v mod 256^n`. -/
theorem memRead_of_bytes {s : State} {a n v : Nat}
    (h : ∀ k, k < n → byteAt s (a + k) = BitVec.ofNat 8 (v / 256 ^ k)) : memRead s a n = v % 256 ^ n := by
  induction n generalizing a v with
  | zero => simp [memRead, Nat.mod_one]
  | succ n ih =>
    have h0 := h 0 (by omega)
    have hr : memRead s (a + 1) n = v / 256 % 256 ^ n := by
      refine ih fun k hk => ?_
      have := h (k + 1) (by omega)
      rw [pow_succ', ← Nat.div_div_eq_div_mul] at this
      rw [← this]
      congr 1
      omega
    rw [memRead, hr, pow_succ', Nat.mod_mul]
    simp only [Nat.add_zero, pow_zero, Nat.div_one] at h0
    rw [h0, BitVec.toNat_ofNat]

/-- MemRead after MemWrite at the same place returns the value written, modulo 256^n (00_scope R11). -/
theorem memRead_memWrite {s : State} {m : Memory} {a n v : Nat} (h : s.byte = memWrite m a n v) :
    memRead s a n = v % 256 ^ n := by
  refine memRead_of_bytes fun k hk => byteAt_of_find ?_
  rw [h, find_memWrite, if_pos (by omega), Nat.add_sub_cancel_left]

/-- The buffers of State.reset are in canonical form: nothing is listed. -/
theorem wf_reset :
    Memory.wf State.reset.byte ∧ Elements.wf State.reset.left ∧ Elements.wf State.reset.right := by
  simp [State.reset, Memory.wf, Elements.wf, Cells.Rising]

end Sys2Proof.Machine
end

