-- ==== Sys2Proof/Laws/Commands.lean ====
section
/-! SUPPORT. What each command's rule can answer (42_document_commands): success with its writes, or one error with none. -/

namespace Sys2Proof.Machine

/-- The engine step of a command always answers a next state: the completion of its rule's result, of its rule's
error, or of INVALID_STATE (42 R170). -/
theorem runCommand_cases (op : Instr) (rule : State → Except CmdError State) (s : State) :
    (allowedIn op s.docState = true ∧ ∃ t, rule s = .ok t ∧
      runCommand op rule s = .next (complete .none SampleInfo.absent t)) ∨
    (allowedIn op s.docState = true ∧ ∃ e, rule s = .error e ∧
      runCommand op rule s = .next (complete e.code e.info s)) ∨
    (allowedIn op s.docState = false ∧
      runCommand op rule s = .next (complete .invalidState SampleInfo.absent s)) := by
  unfold runCommand
  cases ha : allowedIn op s.docState with
  | false => exact .inr (.inr ⟨rfl, by simp⟩)
  | true =>
    cases hr : rule s with
    | ok t => exact .inl ⟨rfl, t, rfl, by simp⟩
    | error e => exact .inr (.inl ⟨rfl, e, rfl, by simp⟩)

theorem runCommand_ok {op : Instr} {rule : State → Except CmdError State} {s t : State}
    (ha : allowedIn op s.docState = true) (hr : rule s = .ok t) :
    runCommand op rule s = .next (complete .none SampleInfo.absent t) := by
  simp [runCommand, ha, hr]

theorem runCommand_error {op : Instr} {rule : State → Except CmdError State} {s : State} {e : CmdError}
    (ha : allowedIn op s.docState = true) (hr : rule s = .error e) :
    runCommand op rule s = .next (complete e.code e.info s) := by
  simp [runCommand, ha, hr]

theorem runCommand_gated {op : Instr} {rule : State → Except CmdError State} {s : State}
    (ha : allowedIn op s.docState = false) :
    runCommand op rule s = .next (complete .invalidState SampleInfo.absent s) := by
  simp [runCommand, ha]

/-- The rule an instruction runs. -/
def ruleOf : Instr → State → Except CmdError State
  | .load => loadRule
  | .create => createRule
  | .setData => setDataRule
  | .getData => getDataRule
  | .destroy => destroyRule

/-- Every arm of `exec` is the common engine step over its rule. -/
theorem exec_eq_runCommand (i : Instr) (s : State) : exec i s = runCommand i (ruleOf i) s := by
  cases i <;> rfl

/-- Everything LOAD can do (42 R172). -/
theorem loadRule_cases (s : State) :
    (∃ c, loadRule s = raise c ∧
      (c = .capacityExceeded ∨ c = .tooSmall ∨ c = .notWav ∨ c = .dataSizeMismatch ∨ c = .invalidBitsPerSample ∨
        c = .invalidNumChannels)) ∨
    (loadRule s = .ok { s with
        hdr := headerFields s, nSamples := BitVec.ofNat 32 (numSamples (headerFields s)), docState := .loaded } ∧
      44 ≤ s.byteLen.toNat ∧ s.byteLen.toNat ≤ s.cfg.bufBytes ∧ magicOk (headerFields s) s.magicAnd = true ∧
      s.byteLen.toNat = 44 + (headerFields s).dataChunkSize.toNat ∧
      ((headerFields s).bitsPerSample = 8 ∨ (headerFields s).bitsPerSample = 16) ∧
      ((headerFields s).numChannels = 1 ∨ (headerFields s).numChannels = 2)) := by
  simp only [loadRule, hdrDecode]
  by_cases h1 : s.cfg.bufBytes < s.byteLen.toNat
  · exact .inl ⟨.capacityExceeded, by rw [if_pos h1], by simp⟩
  rw [if_neg h1]
  by_cases h2 : s.byteLen.toNat < 44
  · exact .inl ⟨.tooSmall, by rw [if_pos h2]; rfl, by simp⟩
  rw [if_neg h2]
  simp only
  by_cases h3 : magicOk (headerFields s) s.magicAnd = false
  · exact .inl ⟨.notWav, by rw [if_pos h3], by simp⟩
  rw [if_neg h3]
  by_cases h4 : s.byteLen.toNat ≠ 44 + (headerFields s).dataChunkSize.toNat
  · exact .inl ⟨.dataSizeMismatch, by rw [if_pos h4], by simp⟩
  rw [if_neg h4]
  by_cases h5 : ¬((headerFields s).bitsPerSample = 8 ∨ (headerFields s).bitsPerSample = 16)
  · exact .inl ⟨.invalidBitsPerSample, by rw [if_pos h5], by simp⟩
  rw [if_neg h5]
  by_cases h6 : ¬((headerFields s).numChannels = 1 ∨ (headerFields s).numChannels = 2)
  · exact .inl ⟨.invalidNumChannels, by rw [if_pos h6], by simp⟩
  rw [if_neg h6]
  exact .inr ⟨rfl, by omega, by omega, by simpa using h3, not_not.mp h4, not_not.mp h5, not_not.mp h6⟩

/-- Everything CREATE can do (42 R174). -/
theorem createRule_cases (s : State) :
    (∃ c, createRule s = raise c ∧ (c = .invalidBitsPerSample ∨ c = .invalidNumChannels)) ∨
    (createRule s = .ok { s with
        hdr := createHeader (numChannelsOperand s) (sampleRateOperand s) (bitsPerSampleOperand s)
        nSamples := 0, byteLen := 0, docState := .created } ∧
      (bitsPerSampleOperand s = 8 ∨ bitsPerSampleOperand s = 16) ∧
      (numChannelsOperand s = 1 ∨ numChannelsOperand s = 2)) := by
  simp only [createRule]
  split
  · exact .inl ⟨_, rfl, .inl rfl⟩
  · split
    · exact .inl ⟨_, rfl, .inr rfl⟩
    · exact .inr ⟨rfl, not_not.mp ‹_›, not_not.mp ‹_›⟩

/-- The scan finds an element iff one of the first `n` is out of range; what it finds is the first (41 R149). -/
theorem firstOutOfRange_eq_some {elem : Nat → Word} {n i : Nat} :
    firstOutOfRange elem n = some i ↔
      i < n ∧ inRange (elem i) = false ∧ ∀ j, j < i → inRange (elem j) = true := by
  simp only [firstOutOfRange, List.find?_range_eq_some]
  simp
  tauto

theorem firstOutOfRange_eq_none {elem : Nat → Word} {n : Nat} :
    firstOutOfRange elem n = none ↔ ∀ i, i < n → inRange (elem i) = true := by
  simp [firstOutOfRange, List.find?_eq_none]

/-- Everything the range check can report (41 R148, R149). -/
theorem rangeError_cases (s : State) (stereo : Bool) (n : Nat) :
    (rangeError s stereo n = none ∧ (∀ i, i < n → inRange (leftAt s i) = true) ∧
      (stereo = true → ∀ i, i < n → inRange (rightAt s i) = true)) ∨
    (∃ i, rangeError s stereo n = some { chan := false, index := BitVec.ofNat 32 i, value := leftAt s i } ∧
      firstOutOfRange (leftAt s) n = some i) ∨
    (∃ i, rangeError s stereo n = some { chan := true, index := BitVec.ofNat 32 i, value := rightAt s i } ∧
      firstOutOfRange (leftAt s) n = none ∧ stereo = true ∧ firstOutOfRange (rightAt s) n = some i) := by
  unfold rangeError
  cases hl : firstOutOfRange (leftAt s) n with
  | some i => exact .inr (.inl ⟨i, rfl, rfl⟩)
  | none =>
    cases stereo with
    | false => exact .inl ⟨rfl, firstOutOfRange_eq_none.mp hl, by simp⟩
    | true =>
      cases hr : firstOutOfRange (rightAt s) n with
      | some i => exact .inr (.inr ⟨i, by simp, rfl, rfl, rfl⟩)
      | none => exact .inl ⟨by simp, firstOutOfRange_eq_none.mp hl, fun _ => firstOutOfRange_eq_none.mp hr⟩

/-- Everything PackValidate can answer (41 R148). -/
theorem packValidate_cases (s : State) :
    (∃ c, packValidate s = raise c ∧
      (c = .invalidNumChannels ∨ c = .bufferLengthMismatch ∨ c = .capacityExceeded)) ∨
    (∃ info, packValidate s = .error { code := .sampleOutOfRange, info := info } ∧
      rangeError s (s.hdr.numChannels.toNat == 2) s.leftLen.toNat = some info) ∨
    (packValidate s = .ok
        (s.leftLen.toNat * bytesPerFrame s.hdr.numChannels.toNat s.hdr.bitsPerSample.toNat) ∧
      (s.hdr.numChannels.toNat = 1 → s.rPresent = false) ∧
      (s.hdr.numChannels.toNat = 2 → s.rPresent = true ∧ s.rightLen = s.leftLen) ∧
      s.leftLen.toNat ≤ s.cfg.maxFrames ∧
      s.leftLen.toNat * bytesPerFrame s.hdr.numChannels.toNat s.hdr.bitsPerSample.toNat ≤ s.cfg.bufBytes - 44 ∧
      rangeError s (s.hdr.numChannels.toNat == 2) s.leftLen.toNat = none) := by
  simp only [packValidate]
  split
  · exact .inl ⟨_, rfl, by simp⟩
  split
  · exact .inl ⟨_, rfl, by simp⟩
  split
  · exact .inl ⟨_, rfl, by simp⟩
  split
  · exact .inl ⟨_, rfl, by simp⟩
  rename_i h1 h2 h3 h4
  split
  · exact .inr (.inl ⟨_, rfl, ‹_›⟩)
  · refine .inr (.inr ⟨rfl, ?_, ?_, by omega, by omega, ‹_›⟩)
    · intro h
      simpa [h] using h1
    · intro h
      simp only [h, true_and, ne_eq, not_not] at h2 h3
      exact ⟨by simpa using h2, h3⟩

/-- The state SET_DATA's rule writes on success (42 R175). -/
def populatedState (s : State) : State :=
  let p := s.leftLen.toNat * bytesPerFrame s.hdr.numChannels.toNat s.hdr.bitsPerSample.toNat
  let h := { s.hdr with chunkSize := BitVec.ofNat 32 (36 + p), dataChunkSize := BitVec.ofNat 32 p }
  { s with
    hdr := h
    byte := packWrite s s.leftLen.toNat s.hdr.numChannels.toNat s.hdr.bitsPerSample.toNat (hdrEncode h s.byte)
    byteLen := BitVec.ofNat 32 (44 + p)
    nSamples := s.leftLen
    docState := .populated }

theorem setDataRule_ok {s : State} {p : Nat} (h : packValidate s = .ok p) : setDataRule s = .ok (populatedState s) := by
  have hp : p = s.leftLen.toNat * bytesPerFrame s.hdr.numChannels.toNat s.hdr.bitsPerSample.toNat := by
    rcases packValidate_cases s with ⟨c, hc, -⟩ | ⟨i, hi, -⟩ | ⟨hv, -⟩
    · simp [hc, raise] at h
    · simp [hi] at h
    · rw [hv] at h
      exact (Except.ok.inj h).symm
  simp [setDataRule, h, populatedState, computeDerived, hp]

theorem setDataRule_error {s : State} {e : CmdError} (h : packValidate s = .error e) : setDataRule s = .error e := by
  simp [setDataRule, h]

end Sys2Proof.Machine
end

