-- ==== Sys2Proof/Laws/Codec.lean ====
section
/-! SUPPORT. What HdrEncode, PackWrite and Unpack do to a buffer: the cells they write, the cells they leave alone, the canonical form and the capacity. -/

namespace Sys2Proof.Machine

/-- HdrEncode writes bytes 0 to 43 only (40 R120, R127). -/
theorem find_hdrEncode_outside (h : Header) (m : Memory) {b : Nat} (hb : 44 ≤ b) :
    Cells.find (hdrEncode h m) b = Cells.find m b := by
  simp only [hdrEncode]
  repeat rw [find_memWrite_outside _ _ (by omega)]

/-- HdrEncode keeps the canonical form. -/
theorem wf_hdrEncode (h : Header) {m : Memory} (hm : Memory.wf m) : Memory.wf (hdrEncode h m) := by
  simp only [hdrEncode]
  repeat apply wf_memWrite
  exact hm

/-- HdrEncode stays inside any capacity that holds a header (00_scope R6). -/
theorem within_hdrEncode (h : Header) {m : Memory} {cap : Nat} (hm : Cells.Within cap m) (hc : 44 ≤ cap) :
    Cells.Within cap (hdrEncode h m) := by
  simp only [hdrEncode]
  repeat refine within_memWrite ?_ (by omega) _
  exact hm

/-- The u8 or s16 pattern PackWrite stores for channel `c` of frame `i` (41 R150). -/
def packedSample (s : State) (bps i c : Nat) : Nat :=
  if bytesPerSample bps = 1 then (BitVec.ofInt 8 (f32ToU8 (channelAt s c i))).toNat
  else (BitVec.ofInt 16 (f32ToS16 (channelAt s c i))).toNat

/-- One packed sample is one MemWrite of its width at its slot (41 R146, R150). -/
theorem packSample_eq (s : State) {nc bps : Nat} (m : Memory) (i c : Nat) (hb : bps = 8 ∨ bps = 16) :
    packSample s nc bps m i c =
      memWrite m (44 + (i * nc + c) * bytesPerSample bps) (bytesPerSample bps) (packedSample s bps i c) := by
  rcases hb with rfl | rfl <;> simp [packSample, packedSample, sampleOffset, bytesPerSample]

theorem packWrite_succ (s : State) (n nc bps : Nat) (m : Memory) :
    packWrite s (n + 1) nc bps m =
      (List.range nc).foldl (fun m c => packSample s nc bps m n c) (packWrite s n nc bps m) := by
  simp [packWrite, List.range_succ, List.foldl_append]

/-- One frame of packed samples, as the MemWrites of its channels. -/
theorem packFrame_find (s : State) {nc bps : Nat} (m : Memory) (i b : Nat) (hb : bps = 8 ∨ bps = 16)
    (hn : nc = 1 ∨ nc = 2) :
    Cells.find ((List.range nc).foldl (fun m c => packSample s nc bps m i c) m) b =
      if 44 + i * nc * bytesPerSample bps ≤ b ∧ b < 44 + (i + 1) * nc * bytesPerSample bps then
        some (BitVec.ofNat 8
          (packedSample s bps i ((b - (44 + i * nc * bytesPerSample bps)) / bytesPerSample bps) /
            256 ^ ((b - (44 + i * nc * bytesPerSample bps)) % bytesPerSample bps)))
      else Cells.find m b := by
  have hw : bytesPerSample bps = 1 ∨ bytesPerSample bps = 2 := by
    rcases hb with rfl | rfl <;> simp [bytesPerSample]
  rcases hn with rfl | rfl
  · rw [show List.range 1 = [0] from rfl, List.foldl_cons, List.foldl_nil, packSample_eq s _ _ _ hb, find_memWrite]
    generalize bytesPerSample bps = w at hw ⊢
    rcases hw with rfl | rfl
    · by_cases h : b = 44 + i
      · subst h; simp
      · rw [if_neg (by omega), if_neg (by omega)]
    · by_cases h : 44 + i * 2 ≤ b ∧ b < 44 + (i + 1) * 2
      · rw [if_pos (by omega), if_pos (by omega)]
        have h1 : (b - (44 + i * 1 * 2)) / 2 = 0 := by omega
        have h2 : (b - (44 + i * 1 * 2)) % 2 = b - (44 + (i * 1 + 0) * 2) := by omega
        rw [h1, h2]
      · rw [if_neg (by omega), if_neg (by omega)]
  · rw [show List.range 2 = [0, 1] from rfl, List.foldl_cons, List.foldl_cons, List.foldl_nil,
      packSample_eq s _ _ _ hb, packSample_eq s _ _ _ hb, find_memWrite, find_memWrite]
    generalize bytesPerSample bps = w at hw ⊢
    rcases hw with rfl | rfl
    · by_cases h1 : b = 44 + (i * 2 + 1)
      · subst h1
        rw [if_pos (by omega), if_pos (by omega)]
        have h2 : (44 + (i * 2 + 1) - (44 + i * 2 * 1)) / 1 = 1 := by omega
        have h3 : 44 + (i * 2 + 1) - (44 + (i * 2 + 1) * 1) = (44 + (i * 2 + 1) - (44 + i * 2 * 1)) % 1 := by omega
        rw [h2, h3]
      · rw [if_neg (by omega)]
        by_cases h0 : b = 44 + i * 2
        · subst h0
          rw [if_pos (by omega), if_pos (by omega)]
          have h2 : (44 + i * 2 - (44 + i * 2 * 1)) / 1 = 0 := by omega
          have h3 : 44 + i * 2 - (44 + (i * 2 + 0) * 1) = (44 + i * 2 - (44 + i * 2 * 1)) % 1 := by omega
          rw [h2, h3]
        · rw [if_neg (by omega), if_neg (by omega)]
    · by_cases h1 : 44 + (i * 2 + 1) * 2 ≤ b ∧ b < 44 + (i * 2 + 1) * 2 + 2
      · rw [if_pos h1, if_pos (by omega)]
        have h2 : (b - (44 + i * 2 * 2)) / 2 = 1 := by omega
        have h3 : b - (44 + (i * 2 + 1) * 2) = (b - (44 + i * 2 * 2)) % 2 := by omega
        rw [h2, h3]
      · rw [if_neg h1]
        by_cases h0 : 44 + (i * 2 + 0) * 2 ≤ b ∧ b < 44 + (i * 2 + 0) * 2 + 2
        · rw [if_pos h0, if_pos (by omega)]
          have h2 : (b - (44 + i * 2 * 2)) / 2 = 0 := by omega
          have h3 : b - (44 + (i * 2 + 0) * 2) = (b - (44 + i * 2 * 2)) % 2 := by omega
          rw [h2, h3]
        · rw [if_neg h0, if_neg (by omega)]

/-- PackWrite leaves every byte outside bytes 44 to 43+P alone (41 R150). -/
theorem find_packWrite_outside (s : State) {n nc bps : Nat} (m : Memory) {b : Nat} (hb : bps = 8 ∨ bps = 16)
    (hn : nc = 1 ∨ nc = 2) (h : b < 44 ∨ 44 + n * nc * bytesPerSample bps ≤ b) :
    Cells.find (packWrite s n nc bps m) b = Cells.find m b := by
  induction n with
  | zero => rfl
  | succ n ih =>
    have hle : n * nc * bytesPerSample bps ≤ (n + 1) * nc * bytesPerSample bps :=
      Nat.mul_le_mul_right _ (Nat.mul_le_mul_right _ (Nat.le_succ n))
    rw [packWrite_succ, packFrame_find s _ n b hb hn, if_neg (by omega), ih (by omega)]

/-- What PackWrite stores: byte k of the sample of channel c of frame i lies at its slot (41 R146, R150). -/
theorem find_packWrite (s : State) {n nc bps : Nat} (m : Memory) (hb : bps = 8 ∨ bps = 16) (hn : nc = 1 ∨ nc = 2)
    {i c k : Nat} (hi : i < n) (hc : c < nc) (hk : k < bytesPerSample bps) :
    Cells.find (packWrite s n nc bps m) (44 + (i * nc + c) * bytesPerSample bps + k) =
      some (BitVec.ofNat 8 (packedSample s bps i c / 256 ^ k)) := by
  have hw : 0 < bytesPerSample bps := by omega
  induction n with
  | zero => omega
  | succ n ih =>
    rw [packWrite_succ, packFrame_find s _ n _ hb hn]
    by_cases hin : i = n
    · subst hin
      have e1 : 44 + (i * nc + c) * bytesPerSample bps + k - (44 + i * nc * bytesPerSample bps) =
          k + bytesPerSample bps * c := by
        rw [Nat.add_mul, Nat.mul_comm c]; omega
      have hlt : c * bytesPerSample bps + k < nc * bytesPerSample bps := by
        have : (c + 1) * bytesPerSample bps ≤ nc * bytesPerSample bps := Nat.mul_le_mul_right _ hc
        rw [Nat.add_mul] at this; omega
      rw [if_pos ?_, e1, Nat.add_mul_div_left _ _ hw, Nat.div_eq_of_lt hk, Nat.zero_add, Nat.add_mul_mod_self_left,
        Nat.mod_eq_of_lt hk]
      constructor
      · rw [Nat.add_mul]; omega
      · rw [Nat.add_mul, Nat.add_mul, Nat.add_mul, Nat.one_mul]; omega
    · have hlt : (i * nc + c) * bytesPerSample bps + k < n * nc * bytesPerSample bps := by
        have h1 : (i + 1) * nc ≤ n * nc := Nat.mul_le_mul_right _ (by omega)
        have h2 : (i * nc + c + 1) * bytesPerSample bps ≤ n * nc * bytesPerSample bps :=
          Nat.mul_le_mul_right _ (by rw [Nat.add_mul] at h1; omega)
        rw [Nat.add_mul _ 1] at h2; omega
      rw [if_neg (by omega)]
      exact ih (by omega)

/-- PackWrite keeps the canonical form. -/
theorem wf_packWrite (s : State) (n nc bps : Nat) {m : Memory} (hm : Memory.wf m) :
    Memory.wf (packWrite s n nc bps m) := by
  induction n with
  | zero => exact hm
  | succ n ih =>
    rw [packWrite_succ]
    generalize packWrite s n nc bps m = m' at ih
    generalize hl : List.range nc = l
    clear hl
    induction l generalizing m' with
    | nil => exact ih
    | cons c l ihl =>
      refine ihl _ ?_
      simp only [packSample]
      split <;> exact wf_memWrite ih _ _ _

/-- PackWrite stays inside a capacity that holds the header and the payload. -/
theorem within_packWrite (s : State) {n nc bps cap : Nat} {m : Memory} (hm : Cells.Within cap m)
    (hb : bps = 8 ∨ bps = 16) (hn : nc = 1 ∨ nc = 2) (hc : 44 + n * nc * bytesPerSample bps ≤ cap) :
    Cells.Within cap (packWrite s n nc bps m) := by
  induction n with
  | zero => exact hm
  | succ n ih =>
    have e : (n + 1) * nc * bytesPerSample bps = n * nc * bytesPerSample bps + nc * bytesPerSample bps := by
      rw [Nat.add_mul, Nat.one_mul, Nat.add_mul]
    have ih := ih (by omega)
    rw [packWrite_succ]
    rcases hn with rfl | rfl
    · rw [show List.range 1 = [0] from rfl, List.foldl_cons, List.foldl_nil, packSample_eq s _ _ _ hb]
      exact within_memWrite ih (by rw [Nat.add_zero]; omega) _
    · rw [show List.range 2 = [0, 1] from rfl, List.foldl_cons, List.foldl_cons, List.foldl_nil,
        packSample_eq s _ _ _ hb, packSample_eq s _ _ _ hb]
      exact within_memWrite (within_memWrite ih (by rw [Nat.add_zero]; omega) _) (by rw [Nat.add_mul]; omega) _

/-- What GET_DATA writes to a channel buffer: elements below N are the unpacked samples, the others are as before
(42 R176). -/
theorem find_unpackInto (s : State) (n nc bps c : Nat) (buf : Elements) (j : Nat) :
    Cells.find (unpackInto s n nc bps c buf) j =
      if j < n then some (unpackSample s nc bps j c) else Cells.find buf j :=
  Cells.find_foldl_put _ _ _ _

theorem wf_unpackInto (s : State) (n nc bps c : Nat) {buf : Elements} (h : Elements.wf buf) :
    Elements.wf (unpackInto s n nc bps c buf) :=
  Cells.rising_foldl_put _ h _

theorem within_unpackInto (s : State) {n : Nat} (nc bps c : Nat) {buf : Elements} {cap : Nat}
    (h : Cells.Within cap buf) (hn : n ≤ cap) : Cells.Within cap (unpackInto s n nc bps c buf) :=
  Cells.within_foldl_put _ h hn

end Sys2Proof.Machine
end

