-- ==== Sys2Proof/Laws/Bus.lean ====
section
/-! SUPPORT. Everything a host transaction, a host turn and a step of the machine can do (20_memory, 70_reset). -/

namespace Sys2Proof.Machine

/-- A legal transaction's target lies inside the buffers (20 R61 to R66). -/
theorem target_inside {cfg : Config} {addr : Word} {size : Size} {tg : Target} (h : target cfg addr size = some tg) :
    match tg with
    | .reg off => off < 0x1000 ∧ off % 4 = 0 ∧ size = .b4
    | .byte a => a + size.bytes ≤ cfg.bufBytes ∧ a % size.bytes = 0
    | .left i => i < cfg.maxFrames ∧ size = .b4
    | .right i => i < cfg.maxFrames ∧ size = .b4 := by
  have hs : size.bytes = 4 ↔ size = .b4 := by cases size <;> simp [Size.bytes]
  simp only [target] at h
  repeat' split at h
  all_goals cases h <;> simp_all

/-- Everything a host write to a register can do while BUSY = 0 (10_state R22, R23). -/
theorem writeReg_cases (s : State) (v : Word) (r : Reg) :
    (r = .ctrl ∧ writeReg s v r = s.writeCtrl v) ∨
    (r = .status ∧ writeReg s v r = s.writeStatus v) ∨
    (r = .cmd ∧ writeReg s v r = s.latch v) ∨
    (writeReg s v r = { s with
      arg0 := (writeReg s v r).arg0, arg1 := (writeReg s v r).arg1, byteLen := (writeReg s v r).byteLen
      leftLen := (writeReg s v r).leftLen, rightLen := (writeReg s v r).rightLen
      rPresent := (writeReg s v r).rPresent }) := by
  cases r <;> simp [writeReg]

/-- The offsets of the registers whose writes are more than a register's new value (10_state R22). -/
theorem offset_of_at {off : Nat} {r : Reg} (h : Reg.at? off = some r) :
    (r = .ctrl → off = 0x008) ∧ (r = .status → off = 0x00C) ∧ (r = .cmd → off = 0x010) := by
  unfold Reg.at? at h
  split at h <;> cases h <;> simp

/-- Everything a legal host write can do: a register write, a buffer write, the soft reset (by a CTRL write with bit 1
set, and by no other write: 70_reset R233), or being dropped. -/
theorem writeTarget_cases (s : State) (n : Nat) (v : Word) (tg : Target) :
    (tg = .reg 0x008 ∧ v.getLsbD 1 = true ∧ writeTarget s n v tg = s.softReset) ∨
    (writeTarget s n v tg = s.setOverrun ∧ ∃ w, s.pend = some w) ∨
    (writeTarget s n v tg = s.writeStatus v) ∨
    (writeTarget s n v tg = s ∧ s.pend = none) ∨
    (s.pend = none ∧
      ((writeTarget s n v tg = s.latch v) ∨
      (∃ b, writeTarget s n v tg = { s with magicAnd := b }) ∨
      (∃ a0 a1 bl ll rl rp, writeTarget s n v tg =
        { s with arg0 := a0, arg1 := a1, byteLen := bl, leftLen := ll, rightLen := rl, rPresent := rp }) ∨
      (∃ a, tg = .byte a ∧ writeTarget s n v tg = { s with byte := memWrite s.byte a n v.toNat }) ∨
      (∃ i, tg = .left i ∧ writeTarget s n v tg = { s with left := Cells.put s.left i v }) ∨
      (∃ i, tg = .right i ∧ writeTarget s n v tg = { s with right := Cells.put s.right i v }))) := by
  unfold writeTarget
  rcases Option.eq_none_or_eq_some s.pend with hp | ⟨w, hp⟩
  · rw [if_neg (by simp [hp])]
    unfold writeIdle
    cases tg with
    | reg off =>
      simp only
      split
      · rename_i r hr
        rcases writeReg_cases s v r with ⟨hc, h⟩ | ⟨-, h⟩ | ⟨-, h⟩ | h
        · rw [h]
          unfold State.writeCtrl
          split
          · exact .inl ⟨by rw [(offset_of_at hr).1 hc], ‹_›, rfl⟩
          · exact .inr (.inr (.inr (.inr ⟨hp, .inr (.inl ⟨_, rfl⟩)⟩)))
        · exact .inr (.inr (.inl h))
        · exact .inr (.inr (.inr (.inr ⟨hp, .inl h⟩)))
        · exact .inr (.inr (.inr (.inr ⟨hp, .inr (.inr (.inl ⟨_, _, _, _, _, _, h⟩))⟩)))
      · exact .inr (.inr (.inr (.inl ⟨rfl, hp⟩)))
    | byte a => exact .inr (.inr (.inr (.inr ⟨hp, .inr (.inr (.inr (.inl ⟨a, rfl, rfl⟩)))⟩)))
    | left i => exact .inr (.inr (.inr (.inr ⟨hp, .inr (.inr (.inr (.inr (.inl ⟨i, rfl, rfl⟩))))⟩)))
    | right i => exact .inr (.inr (.inr (.inr ⟨hp, .inr (.inr (.inr (.inr (.inr ⟨i, rfl, rfl⟩))))⟩)))
  · rw [if_pos (by simp [hp])]
    unfold writeBusy
    split
    · exact .inr (.inr (.inl rfl))
    · split
      · rename_i h
        exact .inl ⟨h.1, h.2, rfl⟩
      · exact .inr (.inl ⟨rfl, w, hp⟩)

/-- Everything a host transaction can answer (20 R61, R68; 60 R206). -/
theorem transact_next {t : Txn} {s u : State} (h : transact t s = .next u) :
    (∃ addr size tg, t = .read addr size ∧ target s.cfg addr size = some tg ∧
      u = s.respond (.data (readTarget s size.bytes tg))) ∨
    (∃ addr size v tg, t = .write addr size v ∧ target s.cfg addr size = some tg ∧
      u = (writeTarget s size.bytes v tg).respond .done) := by
  cases t with
  | read addr size =>
    simp only [transact] at h
    split at h
    · exact absurd h (by simp)
    · exact .inl ⟨addr, size, _, rfl, ‹_›, (Host.Outcome.next.inj h).symm⟩
  | write addr size v =>
    simp only [transact] at h
    split at h
    · exact absurd h (by simp)
    · exact .inr ⟨addr, size, v, _, rfl, ‹_›, (Host.Outcome.next.inj h).symm⟩

/-- An aligned word of the REG aperture is a legal transaction (20 R62). -/
theorem target_reg (cfg : Config) {addr : Word} (h1 : addr.toNat < 0x1000) (h2 : addr.toNat % 4 = 0) :
    target cfg addr .b4 = some (.reg addr.toNat) := by
  have h3 : addr.toNat / 2 ^ 30 = 0 := by omega
  have h4 : addr.toNat % 2 ^ 30 = addr.toNat := by omega
  simp only [target, h3, h4, Size.bytes, if_true]
  rw [if_pos ⟨trivial, h2, h1⟩]

/-- A read of a word of the REG aperture. -/
theorem transact_read_reg {s : State} {addr : Word} (h1 : addr.toNat < 0x1000) (h2 : addr.toNat % 4 = 0) :
    transact (.read addr .b4) s = .next (s.respond (.data (readTarget s 4 (.reg addr.toNat)))) := by
  simp only [transact, target_reg s.cfg h1 h2]
  rfl

/-- A write of a word of the REG aperture. -/
theorem transact_write_reg {s : State} {addr v : Word} (h1 : addr.toNat < 0x1000) (h2 : addr.toNat % 4 = 0) :
    transact (.write addr .b4 v) s = .next ((writeTarget s 4 v (.reg addr.toNat)).respond .done) := by
  simp only [transact, target_reg s.cfg h1 h2]
  rfl

/-- While BUSY = 0 a read is an idle read. -/
theorem readTarget_idle {s : State} (h : s.pend = none) (n : Nat) (tg : Target) :
    readTarget s n tg = readIdle s n tg := by
  simp [readTarget, State.busy, h]

/-- While BUSY = 0 a write is an idle write. -/
theorem writeTarget_idle {s : State} (h : s.pend = none) (n : Nat) (v : Word) (tg : Target) :
    writeTarget s n v tg = writeIdle s n v tg := by
  simp [writeTarget, State.busy, h]

/-- Everything the host's turn can answer (70_reset R244). -/
theorem hostTurn_next {s u : State} (h : hostTurn s = .next u) :
    (s.inputs = [] ∧ u = s) ∨
    (∃ t rest, s.inputs = .bus t :: rest ∧ transact t { s with inputs := rest } = .next u) ∨
    (∃ rest, s.inputs = .poll :: rest ∧ u = pollOnce { s with inputs := rest }) ∨
    (∃ rest, s.inputs = .hardReset :: rest ∧ u = State.hardReset { s with inputs := rest }) := by
  unfold hostTurn at h
  split at h
  · exact .inl ⟨‹_›, (Host.Outcome.next.inj h).symm⟩
  · rename_i a rest hi
    cases a with
    | bus t => exact .inr (.inl ⟨t, rest, hi, h⟩)
    | poll => exact .inr (.inr (.inl ⟨rest, hi, (Host.Outcome.next.inj h).symm⟩))
    | hardReset => exact .inr (.inr (.inr ⟨rest, hi, (Host.Outcome.next.inj h).symm⟩))

/-- The host actions that are no reset keep the document; a reset clears it and PEND (10_state R41, 70_reset R230,
R233). -/
theorem hostTurn_document {s u : State} (h : hostTurn s = .next u) :
    (u.hdr = s.hdr ∧ u.nSamples = s.nSamples ∧ u.docState = s.docState) ∨
    (∃ a rest, s.inputs = a :: rest ∧ HostAction.resets s.cfg a = true ∧ u.inputs = rest ∧
      u.docState = .uninit ∧ u.hdr = Header.zero ∧ u.nSamples = 0 ∧ u.pend = none) := by
  rcases hostTurn_next h with ⟨-, rfl⟩ | ⟨t, rest, hi, h⟩ | ⟨rest, -, rfl⟩ | ⟨rest, hi, rfl⟩
  · exact .inl ⟨rfl, rfl, rfl⟩
  · rcases transact_next h with ⟨a, sz, tg, -, -, rfl⟩ | ⟨a, sz, v, tg, rfl, ht, rfl⟩
    · exact .inl ⟨rfl, rfl, rfl⟩
    · rcases writeTarget_cases { s with inputs := rest } sz.bytes v tg with
        ⟨rfl, hv, h⟩ | ⟨h, -⟩ | h | ⟨h, -⟩ | ⟨-, h | ⟨_, h⟩ | ⟨_, _, _, _, _, _, h⟩ | ⟨_, -, h⟩ | ⟨_, -, h⟩ | ⟨_, -, h⟩⟩ <;>
        rw [h]
      · refine .inr ⟨_, rest, hi, ?_, ?_⟩
        · have ht : target s.cfg a sz = some (.reg 0x008) := ht
          simp [HostAction.resets, ht, hv]
        · unfold State.softReset
          split <;> exact ⟨rfl, rfl, rfl, rfl, rfl⟩
      all_goals exact .inl ⟨rfl, rfl, rfl⟩
  · exact .inl ⟨rfl, rfl, rfl⟩
  · exact .inr ⟨_, rest, hi, rfl, rfl, rfl, rfl, rfl, rfl⟩

/-- Everything a step can answer: a host turn of an idle machine, a host turn while a command waits, the completion of
an illegal word, or one command (00_scope R14, 42 R170). -/
theorem step_next {s u : State} (h : step s = .next u) :
    (s.pend = none ∧ hostTurn s = .next u) ∨
    (∃ w, s.pend = some w ∧ s.wait ≠ 0 ∧ hostTurn s.waited = .next u) ∨
    (∃ w e, s.pend = some w ∧ s.wait = 0 ∧ decode w = .error e ∧ u = illegalCommand s) ∨
    (∃ w i, s.pend = some w ∧ s.wait = 0 ∧ decode w = .ok i ∧ exec i s = .next u) := by
  unfold step at h
  split at h
  · exact .inl ⟨‹_›, h⟩
  · rename_i w hp
    split at h
    · rename_i hw
      unfold engineStep at h
      split at h
      · exact .inr (.inr (.inr ⟨w, _, hp, hw, ‹_›, h⟩))
      · exact .inr (.inr (.inl ⟨w, _, hp, hw, ‹_›, (Host.Outcome.next.inj h).symm⟩))
    · exact .inr (.inl ⟨w, hp, ‹_›, h⟩)

/-- A run takes its first step, then the rest. -/
theorem core_run_succ (M : Host.Core) {s t : M.State} (h : M.step s = .next t) (k : Nat) :
    M.run (k + 1) s = M.run k t := by
  simp only [Host.Core.run, h]

/-- A run of this machine takes its first step, then the rest. -/
theorem run_succ {s t : State} (h : step s = .next t) (k : Nat) :
    Host.Core.run core (k + 1) s = Host.Core.run core k t :=
  core_run_succ core h k

end Sys2Proof.Machine
end

