-- ==== Sys2Proof/Laws/Exec.lean ====
section
/-! SUPPORT. Everything `exec` can answer, said once for all five commands: success with the rule's writes, or one error with none (42 R170, R179; 60 R204). -/

namespace Sys2Proof.Machine

/-- A successful completion, in the words of the statements. -/
theorem complete_success (info : SampleInfo) (t : State) : complete .none info t = t.succeeded := rfl

/-- A failed completion that records no info. -/
theorem complete_absent {c : ErrCode} (h : c ≠ .none) (s : State) :
    complete c SampleInfo.absent s = s.failedWith c false 0 0 := by
  simp only [complete, State.failedWith, SampleInfo.absent, ite_self]
  simp [h]

/-- The completion of an out-of-range sample. -/
theorem complete_outOfRange (info : SampleInfo) (s : State) :
    complete .sampleOutOfRange info s = s.failedWith .sampleOutOfRange info.chan info.index info.value := rfl

/-- The codes a command's own rule raises with no info (60_exceptions R201). -/
def ownCodes : Instr → List ErrCode
  | .load => [.capacityExceeded, .tooSmall, .notWav, .dataSizeMismatch, .invalidBitsPerSample, .invalidNumChannels]
  | .create => [.invalidBitsPerSample, .invalidNumChannels]
  | .setData => [.invalidNumChannels, .bufferLengthMismatch, .capacityExceeded]
  | .getData => []
  | .destroy => []

theorem ownCodes_ne {i : Instr} {c : ErrCode} (h : c ∈ ownCodes i) :
    c ≠ .none ∧ c ≠ .sampleOutOfRange ∧ c ≠ .invalidSampleRate ∧ c ≠ .invalidState ∧ c ≠ .illegalCommand := by
  cases i <;> cases c <;> simp_all [ownCodes]

/-- What a command's rule can answer. -/
theorem ruleOf_cases (i : Instr) (s : State) :
    (∃ t, ruleOf i s = .ok t) ∨
    (∃ c, c ∈ ownCodes i ∧ ruleOf i s = raise c) ∨
    (i = .setData ∧ ∃ info, ruleOf i s = .error { code := .sampleOutOfRange, info := info } ∧
      rangeError s (s.hdr.numChannels.toNat == 2) s.leftLen.toNat = some info) := by
  cases i with
  | load =>
    rcases loadRule_cases s with ⟨c, hc, h⟩ | ⟨h, -⟩
    · exact .inr (.inl ⟨c, by rcases h with h | h | h | h | h | h <;> simp [ownCodes, h], hc⟩)
    · exact .inl ⟨_, h⟩
  | create =>
    rcases createRule_cases s with ⟨c, hc, h⟩ | ⟨h, -⟩
    · exact .inr (.inl ⟨c, by rcases h with h | h <;> simp [ownCodes, h], hc⟩)
    · exact .inl ⟨_, h⟩
  | setData =>
    rcases packValidate_cases s with ⟨c, hc, h⟩ | ⟨info, hi, hr⟩ | ⟨h, -⟩
    · exact .inr (.inl ⟨c, by rcases h with h | h | h <;> simp [ownCodes, h], setDataRule_error hc⟩)
    · exact .inr (.inr ⟨rfl, info, setDataRule_error hi, hr⟩)
    · exact .inl ⟨_, setDataRule_ok h⟩
  | getData => exact .inl ⟨_, rfl⟩
  | destroy => exact .inl ⟨_, rfl⟩

/-- Everything a command can do. -/
theorem exec_cases (i : Instr) (s : State) :
    (allowedIn i s.docState = true ∧ ∃ t, ruleOf i s = .ok t ∧ exec i s = .next t.succeeded) ∨
    (allowedIn i s.docState = true ∧ ∃ c, c ∈ ownCodes i ∧ ruleOf i s = raise c ∧
      exec i s = .next (s.failedWith c false 0 0)) ∨
    (i = .setData ∧ allowedIn i s.docState = true ∧ ∃ info,
      rangeError s (s.hdr.numChannels.toNat == 2) s.leftLen.toNat = some info ∧
      exec i s = .next (s.failedWith .sampleOutOfRange info.chan info.index info.value)) ∨
    (allowedIn i s.docState = false ∧ exec i s = .next (s.failedWith .invalidState false 0 0)) := by
  rw [exec_eq_runCommand]
  cases ha : allowedIn i s.docState with
  | false => exact .inr (.inr (.inr ⟨rfl, by rw [runCommand_gated ha]; rfl⟩))
  | true =>
    rcases ruleOf_cases i s with ⟨t, ht⟩ | ⟨c, hc, hr⟩ | ⟨hi, info, he, hr⟩
    · exact .inl ⟨rfl, t, ht, by rw [runCommand_ok ha ht]; rfl⟩
    · refine .inr (.inl ⟨rfl, c, hc, hr, ?_⟩)
      rw [runCommand_error ha hr]
      exact congrArg _ (complete_absent (ownCodes_ne hc).1 s)
    · exact .inr (.inr (.inl ⟨hi, rfl, info, hr, by rw [runCommand_error ha he]; rfl⟩))

/-- A command that completes with NONE ran its rule to the end. -/
theorem exec_success {i : Instr} {s t : State} (h : exec i s = .next t) (hc : t.errCode = .none) :
    allowedIn i s.docState = true ∧ ∃ u, ruleOf i s = .ok u ∧ t = u.succeeded := by
  rcases exec_cases i s with ⟨ha, u, hu, he⟩ | ⟨-, c, hm, -, he⟩ | ⟨-, -, info, -, he⟩ | ⟨-, he⟩ <;>
    rw [h] at he <;> obtain rfl := Host.Outcome.next.inj he
  · exact ⟨ha, u, hu, rfl⟩
  · exact absurd hc (ownCodes_ne hm).1
  · simp [State.failedWith] at hc
  · simp [State.failedWith] at hc

/-- A command that completes with an error changed nothing but the completion registers (60 R204). -/
theorem exec_failure {i : Instr} {s t : State} (h : exec i s = .next t) (hc : t.errCode ≠ .none) :
    t = s.failedWith t.errCode t.errChan t.errIndex t.errValue := by
  rcases exec_cases i s with ⟨-, u, -, he⟩ | ⟨-, c, -, -, he⟩ | ⟨-, -, info, -, he⟩ | ⟨-, he⟩ <;>
    rw [h] at he <;> obtain rfl := Host.Outcome.next.inj he
  · simp [State.succeeded] at hc
  all_goals rfl

/-- Every command completes, from every state (60_exceptions R200). -/
theorem exec_always_completes (i : Instr) (s : State) : ∃ t, exec i s = .next t := by
  rcases exec_cases i s with ⟨-, u, -, he⟩ | ⟨-, c, -, -, he⟩ | ⟨-, -, info, -, he⟩ | ⟨-, he⟩ <;> exact ⟨_, he⟩

/-- A LOAD that succeeds passed every check and wrote the document (42 R172). -/
theorem ruleOf_load_ok {s u : State} (h : ruleOf .load s = .ok u) : u = { s with
        hdr := headerFields s, nSamples := BitVec.ofNat 32 (numSamples (headerFields s)), docState := .loaded } ∧
      44 ≤ s.byteLen.toNat ∧ s.byteLen.toNat ≤ s.cfg.bufBytes ∧ magicOk (headerFields s) s.magicAnd = true ∧
      s.byteLen.toNat = 44 + (headerFields s).dataChunkSize.toNat ∧
      ((headerFields s).bitsPerSample = 8 ∨ (headerFields s).bitsPerSample = 16) ∧
      ((headerFields s).numChannels = 1 ∨ (headerFields s).numChannels = 2) := by
  simp only [ruleOf] at h
  rcases loadRule_cases s with ⟨c, hc, h'⟩ | ⟨h', r⟩
  · simp [hc, raise] at h
  · rw [h'] at h; exact ⟨(Except.ok.inj h).symm, r⟩

/-- A CREATE that succeeds passed both checks and wrote the document (42 R174). -/
theorem ruleOf_create_ok {s u : State} (h : ruleOf .create s = .ok u) : u = { s with
        hdr := createHeader (numChannelsOperand s) (sampleRateOperand s) (bitsPerSampleOperand s)
        nSamples := 0, byteLen := 0, docState := .created } ∧
      (bitsPerSampleOperand s = 8 ∨ bitsPerSampleOperand s = 16) ∧
      (numChannelsOperand s = 1 ∨ numChannelsOperand s = 2) := by
  simp only [ruleOf] at h
  rcases createRule_cases s with ⟨c, hc, h'⟩ | ⟨h', r⟩
  · simp [hc, raise] at h
  · rw [h'] at h; exact ⟨(Except.ok.inj h).symm, r⟩

/-- A SET_DATA that succeeds passed every check and wrote the document (42 R175). -/
theorem ruleOf_setData_ok {s u : State} (h : ruleOf .setData s = .ok u) : u = populatedState s ∧
      (s.hdr.numChannels.toNat = 1 → s.rPresent = false) ∧
      (s.hdr.numChannels.toNat = 2 → s.rPresent = true ∧ s.rightLen = s.leftLen) ∧
      s.leftLen.toNat ≤ s.cfg.maxFrames ∧
      s.leftLen.toNat * bytesPerFrame s.hdr.numChannels.toNat s.hdr.bitsPerSample.toNat ≤ s.cfg.bufBytes - 44 ∧
      rangeError s (s.hdr.numChannels.toNat == 2) s.leftLen.toNat = none := by
  simp only [ruleOf] at h
  rcases packValidate_cases s with ⟨c, hc, h'⟩ | ⟨info, hi, -⟩ | ⟨h', r⟩
  · simp [setDataRule_error hc] at h
  · simp [setDataRule_error hi] at h
  · rw [setDataRule_ok h'] at h; exact ⟨(Except.ok.inj h).symm, r⟩


theorem bitsPerSample_toNat {x : Half} (h : x = 8 ∨ x = 16) : x.toNat = 8 ∨ x.toNat = 16 := by
  rcases h with rfl | rfl <;> simp

theorem numChannels_toNat {x : Half} (h : x = 1 ∨ x = 2) : x.toNat = 1 ∨ x.toNat = 2 := by
  rcases h with rfl | rfl <;> simp

/-- A document of a state that holds one is mono or stereo, of 8 or 16 bits (10_state R51). -/
theorem inv_geometry {s : State} (h : s.DocumentOk) (hd : s.hasDocument) :
    (s.hdr.bitsPerSample.toNat = 8 ∨ s.hdr.bitsPerSample.toNat = 16) ∧
      (s.hdr.numChannels.toNat = 1 ∨ s.hdr.numChannels.toNat = 2) :=
  ⟨bitsPerSample_toNat (h.2.1 hd).1, numChannels_toNat (h.2.1 hd).2⟩

end Sys2Proof.Machine
end

