-- ==== Sys2Proof/Laws/Document.lean ====
section
/-! SUPPORT. What the header fields depend on, and the document image SET_DATA writes, byte by byte (42 R175, 41 R150). -/

namespace Sys2Proof.Machine

/-- A u16 read as two bytes: the byte at the higher address is the more significant one (00 R11). -/
theorem memRead_two (s : State) (a : Nat) : BitVec.ofNat 16 (memRead s a 2) = byteAt s (a + 1) ++ byteAt s a := by
  apply BitVec.eq_of_toNat_eq
  have h1 := (byteAt s a).isLt
  have h2 := (byteAt s (a+1)).isLt
  rw [BitVec.toNat_append, ← Nat.shiftLeft_add_eq_or_of_lt h1, Nat.shiftLeft_eq]
  simp only [memRead, BitVec.toNat_ofNat]
  omega

/-- The header fields depend on bytes 0 to 43 only (40 R120). -/
theorem headerFields_congr {s t : State} (h : ∀ b, b < 44 → byteAt s b = byteAt t b) :
    headerFields s = headerFields t := by
  have c : ∀ a n, a + n ≤ 44 → memRead s a n = memRead t a n := fun a n hle =>
    memRead_congr fun b h1 h2 => h b (by omega)
  simp only [headerFields, c 0 4 (by omega), c 4 4 (by omega), c 8 4 (by omega), c 12 4 (by omega),
    c 16 4 (by omega), c 20 2 (by omega), c 22 2 (by omega), c 24 4 (by omega), c 28 4 (by omega),
    c 32 2 (by omega), c 34 2 (by omega), c 36 4 (by omega), c 40 4 (by omega)]

/-- Bytes 0 to 43 of the image SET_DATA writes are those of HdrEncode. -/
theorem populated_find_header {s : State} (hi : s.DocumentOk) (hd : s.hasDocument) {b : Nat} (hb : b < 44) :
    Cells.find (populatedState s).byte b = Cells.find (hdrEncode (populatedState s).hdr s.byte) b := by
  obtain ⟨h8, hn⟩ := inv_geometry hi hd
  exact find_packWrite_outside _ _ h8 hn (.inl hb)

/-- SET_DATA writes no byte from 44 + P on. -/
theorem populated_find_beyond {s : State} (hi : s.DocumentOk) (hd : s.hasDocument) {b : Nat}
    (hb : 44 + s.leftLen.toNat * (s.hdr.numChannels.toNat * (s.hdr.bitsPerSample.toNat / 8)) ≤ b) :
    Cells.find (populatedState s).byte b = Cells.find s.byte b := by
  obtain ⟨h8, hn⟩ := inv_geometry hi hd
  have h1 : Cells.find (populatedState s).byte b = Cells.find (hdrEncode (populatedState s).hdr s.byte) b :=
    find_packWrite_outside _ _ h8 hn (.inr (by rw [Nat.mul_assoc]; exact hb))
  rw [h1, find_hdrEncode_outside _ _ (by omega)]

/-- Byte k of the sample of channel c of frame i in the image SET_DATA writes. -/
theorem populated_find_slot {s : State} (hi : s.DocumentOk) (hd : s.hasDocument) {i c k : Nat}
    (hi' : i < s.leftLen.toNat) (hc : c < s.hdr.numChannels.toNat) (hk : k < bytesPerSample s.hdr.bitsPerSample.toNat) :
    Cells.find (populatedState s).byte
        (44 + (i * s.hdr.numChannels.toNat + c) * bytesPerSample s.hdr.bitsPerSample.toNat + k) =
      some (BitVec.ofNat 8 (packedSample s s.hdr.bitsPerSample.toNat i c / 256 ^ k)) := by
  obtain ⟨h8, hn⟩ := inv_geometry hi hd
  exact find_packWrite s _ h8 hn hi' hc hk

/-- The range check passes when every element does. -/
theorem rangeError_none {s : State} {st : Bool} {n : Nat} (h1 : ∀ j, j < n → inRange (leftAt s j) = true)
    (h2 : st = true → ∀ j, j < n → inRange (rightAt s j) = true) :
    rangeError s st n = none := by
  unfold rangeError
  rw [firstOutOfRange_eq_none.mpr h1]
  cases st
  · rfl
  · simp [firstOutOfRange_eq_none.mpr (h2 rfl)]

/-- SET_DATA when all of PackValidate's checks pass. -/
theorem exec_setData_passes {s : State} (hd : s.docState = .created ∨ s.docState = .populated)
    (hs : (s.hdr.numChannels.toNat = 1 ∧ s.rPresent = false) ∨
      (s.hdr.numChannels.toNat = 2 ∧ s.rPresent = true ∧ s.rightLen = s.leftLen))
    (h1 : s.leftLen.toNat ≤ s.cfg.maxFrames)
    (h2 : s.leftLen.toNat * bytesPerFrame s.hdr.numChannels.toNat s.hdr.bitsPerSample.toNat ≤ s.cfg.bufBytes - 44)
    (h3 : ∀ j, j < s.leftLen.toNat → inRange (leftAt s j) = true)
    (h4 : s.hdr.numChannels.toNat = 2 → ∀ j, j < s.leftLen.toNat → inRange (rightAt s j) = true) :
    exec .setData s = .next (populatedState s).succeeded := by
  have ha : allowedIn .setData s.docState = true := by rcases hd with h | h <;> simp [allowedIn, h]
  have hv : packValidate s =
      .ok (s.leftLen.toNat * bytesPerFrame s.hdr.numChannels.toNat s.hdr.bitsPerSample.toNat) := by
    have hr := rangeError_none (st := s.hdr.numChannels.toNat == 2) h3 (by simpa using h4)
    unfold packValidate
    rcases hs with ⟨e1, e2⟩ | ⟨e1, e2, e3⟩
    · simp only [hr]
      rw [if_neg (by simp [e2]), if_neg (by omega), if_neg (by omega), if_neg (by omega)]
    · simp only [hr]
      rw [if_neg (by omega), if_neg (by simp [e2]), if_neg (by simp [e3]), if_neg (by omega)]
  rw [exec_eq_runCommand]
  exact runCommand_ok ha (setDataRule_ok hv)

end Sys2Proof.Machine
end

