-- ==== Sys2Proof/Laws/Float.lean ====
section
/-! SUPPORT. The shape of binary32 magnitudes and of the rounded quotient (00_scope R12): fields of a pattern, the grid of representable values, and which integer roundMag picks. -/

namespace Sys2Proof.Machine

/-- The biased exponent as a quotient of the pattern's low 31 bits. -/
theorem f32Exp_eq (v : Word) : f32Exp v = v.toNat % 2 ^ 31 / 2 ^ 23 := by
  simp only [f32Exp, BitVec.extractLsb'_toNat, Nat.shiftRight_eq_div_pow]
  omega

/-- The fraction as a remainder of the pattern's low 31 bits. -/
theorem f32Frac_eq (v : Word) : f32Frac v = v.toNat % 2 ^ 31 % 2 ^ 23 := by
  simp only [f32Frac, BitVec.extractLsb'_toNat, Nat.shiftRight_eq_div_pow]
  omega

/-- The sign is bit 31. -/
theorem f32Sign_eq (v : Word) : f32Sign v = decide (2 ^ 31 ≤ v.toNat) := by
  have h := BitVec.msb_eq_decide v
  rwa [BitVec.msb_eq_getLsbD_last] at h

/-- The magnitude, in units of 2^-149, of the finite binary32 with the bits 30:0 of this pattern. -/
def patternMag (p : Nat) : Nat :=
  if p / 2 ^ 23 = 0 then p % 2 ^ 23 else (2 ^ 23 + p % 2 ^ 23) * 2 ^ (p / 2 ^ 23 - 1)

theorem f32Mag_eq (v : Word) : f32Mag v = patternMag (v.toNat % 2 ^ 31) := by
  simp only [f32Mag, patternMag, f32Exp_eq, f32Frac_eq]

/-- With the spacing `2^k`, the significand `q` (a carry to 2^24 included) has the pattern `k*2^23 + q`. -/
theorem patternMag_add {k q : Nat} (hk : k = 0 ∨ 2 ^ 23 ≤ q) (hq : q ≤ 2 ^ 24) :
    patternMag (k * 2 ^ 23 + q) = q * 2 ^ k := by
  unfold patternMag
  by_cases h1 : q < 2 ^ 23
  · obtain rfl : k = 0 := by omega
    rw [if_pos (by omega)]
    omega
  · by_cases h2 : q = 2 ^ 24
    · subst h2
      have e1 : (k * 2 ^ 23 + 2 ^ 24) / 2 ^ 23 = k + 2 := by omega
      have e2 : (k * 2 ^ 23 + 2 ^ 24) % 2 ^ 23 = 0 := by omega
      rw [e1, e2, if_neg (by omega), show k + 2 - 1 = k + 1 from rfl, pow_succ]
      omega
    · have e1 : (k * 2 ^ 23 + q) / 2 ^ 23 = k + 1 := by omega
      have e2 : (k * 2 ^ 23 + q) % 2 ^ 23 = q - 2 ^ 23 := by omega
      rw [e1, e2, if_neg (by omega), Nat.add_sub_cancel, Nat.add_sub_cancel' (by omega)]

/-- The next pattern is the next larger magnitude. -/
theorem patternMag_lt_succ (p : Nat) : patternMag p < patternMag (p + 1) := by
  by_cases h : p / 2 ^ 23 = 0
  · have e1 : patternMag p = p := by
      have := patternMag_add (k := 0) (q := p) (.inl rfl) (by omega)
      simpa using this
    have e2 : patternMag (p + 1) = p + 1 := by
      have := patternMag_add (k := 0) (q := p + 1) (.inl rfl) (by omega)
      simpa using this
    omega
  · have e : p = (p / 2 ^ 23 - 1) * 2 ^ 23 + (2 ^ 23 + p % 2 ^ 23) := by omega
    have h1 := patternMag_add (k := p / 2 ^ 23 - 1) (q := 2 ^ 23 + p % 2 ^ 23) (.inr (by omega)) (by omega)
    have h2 := patternMag_add (k := p / 2 ^ 23 - 1) (q := 2 ^ 23 + p % 2 ^ 23 + 1) (.inr (by omega)) (by omega)
    rw [← e] at h1
    rw [← Nat.add_assoc, ← e] at h2
    rw [h1, h2]
    exact Nat.mul_lt_mul_of_pos_right (Nat.lt_succ_self _) (Nat.two_pow_pos _)

theorem patternMag_strictMono : StrictMono patternMag := strictMono_nat_of_lt_succ patternMag_lt_succ

/-- A binary32 magnitude is a multiple of the spacing `2^k`, or lies below the binade that has this spacing. -/
theorem patternMag_grid (p k : Nat) : 2 ^ k ∣ patternMag p ∨ patternMag p < 2 ^ (k + 23) := by
  by_cases h : k + 1 ≤ p / 2 ^ 23
  · left
    unfold patternMag
    rw [if_neg (by omega)]
    exact Dvd.dvd.mul_left (pow_dvd_pow 2 (by omega)) _
  · by_cases hk : k = 0
    · left; subst hk; simp
    · right
      have h1 : p < (k + 1) * 2 ^ 23 := by
        have := Nat.div_add_mod p (2 ^ 23)
        have := Nat.mod_lt p (show 0 < 2 ^ 23 by norm_num)
        have h3 : p / 2 ^ 23 ≤ k := by omega
        have : 2 ^ 23 * (p / 2 ^ 23) ≤ 2 ^ 23 * k := Nat.mul_le_mul_left _ h3
        omega
      have h2 := patternMag_strictMono h1
      have h3 := patternMag_add (k := k) (q := 2 ^ 23) (.inr (le_refl _)) (by omega)
      rw [show (k + 1) * 2 ^ 23 = k * 2 ^ 23 + 2 ^ 23 by omega, h3] at h2
      rwa [pow_add, Nat.mul_comm]

/-- The integer `roundMag` rounds the quotient to: `num / d` to nearest, ties to even. -/
def roundQuot (num d : Nat) : Nat :=
  if d < 2 * (num % d) ∨ (d = 2 * (num % d) ∧ num / d % 2 = 1) then num / d + 1 else num / d

theorem roundMag_eq (num den : Nat) :
    roundMag num den =
      min (((num / den).log2 - 23) * 2 ^ 23 + roundQuot num (den * 2 ^ ((num / den).log2 - 23))) 0x7F800000 := rfl

/-- No integer is nearer to `num / d` than the rounded quotient, and on a tie the rounded quotient is even. -/
theorem roundQuot_nearest {num d : Nat} (hd : 0 < d) (j : Int) :
    ((roundQuot num d : Int) * d - num).natAbs ≤ (j * d - num).natAbs ∧
    (((roundQuot num d : Int) * d - num).natAbs = (j * d - num).natAbs → j ≠ roundQuot num d →
      roundQuot num d % 2 = 0) := by
  have hdm := Nat.div_add_mod num d
  have hlt := Nat.mod_lt num hd
  unfold roundQuot
  generalize num / d = q at *
  generalize num % d = r at *
  have e : (num : Int) = d * q + r := by exact_mod_cast hdm.symm
  have hj : (j : Int) ≤ q - 1 ∨ j = q ∨ j = q + 1 ∨ j ≥ q + 2 := by omega
  have m1 : j ≤ q - 1 → j * d ≤ (q - 1 : Int) * d := fun h => Int.mul_le_mul_of_nonneg_right h (by omega)
  have m2 : j ≥ q + 2 → (q + 2 : Int) * d ≤ j * d := fun h => Int.mul_le_mul_of_nonneg_right h (by omega)
  have x1 : (q - 1 : Int) * d = q * d - d := by ring
  have x2 : (q + 2 : Int) * d = q * d + 2 * d := by ring
  have x3 : (q + 1 : Int) * d = q * d + d := by ring
  have x4 : (d : Int) * q = q * d := by ring
  rw [x4] at e
  rcases hj with h | h | h | h
  · have := m1 h
    split <;> push_cast <;> omega
  · subst h
    split <;> push_cast <;> omega
  · subst h
    rw [x3]
    split <;> push_cast <;> omega
  · have := m2 h
    split <;> push_cast <;> omega

/-- The rounded quotient fits: with the spacing `roundMag` chooses it is at most 2^24, and at least 2^23 unless the
spacing is the smallest. -/
theorem roundQuot_range (num den : Nat) :
    roundQuot num (den * 2 ^ ((num / den).log2 - 23)) ≤ 2 ^ 24 ∧
    ((num / den).log2 - 23 = 0 ∨ 2 ^ 23 ≤ num / (den * 2 ^ ((num / den).log2 - 23))) := by
  have key : num / (den * 2 ^ ((num / den).log2 - 23)) < 2 ^ 24 := by
    rw [← Nat.div_div_eq_div_mul, Nat.div_lt_iff_lt_mul (Nat.two_pow_pos _), ← pow_add]
    refine lt_of_lt_of_le Nat.lt_log2_self (Nat.pow_le_pow_right (by norm_num) (by omega))
  constructor
  · unfold roundQuot; split <;> omega
  · by_cases h : (num / den).log2 - 23 = 0
    · exact .inl h
    · right
      have h0 : num / den ≠ 0 := by
        intro h0; rw [h0] at h; simp at h
      rw [← Nat.div_div_eq_div_mul, Nat.le_div_iff_mul_le (Nat.two_pow_pos _), ← pow_add]
      refine le_trans (Nat.pow_le_pow_right (by norm_num) (by omega)) (Nat.log2_self_le h0)

/-- The magnitude `roundMag` gives, when it is finite. -/
theorem patternMag_roundMag {num den : Nat} (h : roundMag num den < 0x7F800000) :
    patternMag (roundMag num den) =
      roundQuot num (den * 2 ^ ((num / den).log2 - 23)) * 2 ^ ((num / den).log2 - 23) := by
  obtain ⟨h1, h2⟩ := roundQuot_range num den
  rw [roundMag_eq] at h ⊢
  rw [min_eq_left (by omega)]
  refine patternMag_add (h2.imp id fun h => ?_) h1
  unfold roundQuot; split <;> omega

end Sys2Proof.Machine
end

