-- ==== Sys2Proof/Laws/PerInstr.lean ====
section
/-! SUPPORT. One lemma per command: what its encoded word is (30_encoding R90, R91, R95). -/

namespace Sys2Proof.Laws.EncodedWord

open Sys2Proof

/-- The word of a command has zero in RSVD, its opcode of R91 in OPC, one of 1 to 5, and decodes to that command. -/
def Statement (i : Instr) : Prop :=
  i.wellFormed = true ∧ rsvdField (encode i) = 0 ∧ opcField (encode i) = opcodeOf i ∧
    1 ≤ (opcodeOf i).toNat ∧ (opcodeOf i).toNat ≤ 5 ∧ decode (encode i) = .ok i

theorem load : Statement .load := by unfold Statement; decide
theorem create : Statement .create := by unfold Statement; decide
theorem setData : Statement .setData := by unfold Statement; decide
theorem getData : Statement .getData := by unfold Statement; decide
theorem destroy : Statement .destroy := by unfold Statement; decide

end Sys2Proof.Laws.EncodedWord
end

