-- ==== Sys2Proof/Tests/Slice0.lean ====
section
/-! SUPPORT. The model's own tests: words written out from the encoding, one-step tests with the spec's vectors (95_test_vectors), the WellFormed smoke test, and a witness for the hypotheses of every statement. -/

open Sys2Proof Sys2Proof.Machine

namespace Sys2Proof.Tests

/-! ## Helpers -/

/-- A small legal instance: 64 bytes, 20 frames. -/
def smallCfg : Config := { bufBytes := 64, maxFrames := 20 }

/-- After hardware reset, on the small instance. -/
def idle : State := { State.reset with cfg := smallCfg }

/-- The next state of an outcome. -/
def after : Host.Outcome State Fault Refusal → State
  | .next t => t
  | .fault _ => State.reset
  | .refused _ => State.reset

/-- The outcome is a next state whose command ended with this code. -/
def endsWith (o : Host.Outcome State Fault Refusal) (c : ErrCode) : Bool :=
  match o with
  | .next t => t.errCode == c
  | .fault _ => false
  | .refused _ => false

theorem endsWith_next {o : Host.Outcome State Fault Refusal} {c : ErrCode} (h : endsWith o c = true) :
    ∃ t, o = .next t ∧ t.errCode = c := by
  cases o with
  | next t => exact ⟨t, rfl, by simpa [endsWith] using h⟩
  | fault r => simp [endsWith] at h
  | refused r => simp [endsWith] at h

/-- The five parts of the invariant, decided one by one. -/
def invCheck (s : State) : Bool :=
  decide s.cfg.WellFormed && decide s.BuffersOk && decide s.ErrorOk && decide s.DocumentOk && decide s.DerivedOk

theorem inv_of_check {s : State} (h : invCheck s = true) : s.Inv := by
  simp only [invCheck, Bool.and_eq_true, decide_eq_true_eq] at h
  exact ⟨h.1.1.1.1, h.1.1.1.2, h.1.1.2, h.1.2, h.2⟩

/-- Listed cells from index `a` on. -/
def cellsFrom {n : Nat} (a : Nat) : List Nat → Cells (BitVec n)
  | [] => []
  | v :: rest => (a, BitVec.ofNat n v) :: cellsFrom (a + 1) rest

/-- B51 of 95_test_vectors V5: stereo 8-bit 8000 Hz with 7 payload bytes. -/
def b51 : State :=
  { idle with
    byteLen := 51
    byte := cellsFrom 0 [0x52, 0x49, 0x46, 0x46, 0x2B, 0, 0, 0, 0x57, 0x41, 0x56, 0x45, 0x66, 0x6D, 0x74, 0x20,
      0x10, 0, 0, 0, 1, 0, 2, 0, 0x40, 0x1F, 0, 0, 0x80, 0x3E, 0, 0, 2, 0, 8, 0, 0x64, 0x61, 0x74, 0x61, 7, 0, 0, 0,
      0x00, 0xFF, 0x7F, 0x80, 0xFE, 0x01, 0x55] }

/-- B51 with byte `a` changed (V5). -/
def b51With (a v : Nat) : State := { b51 with byte := Cells.put b51.byte a (BitVec.ofNat 8 v) }

/-- The document LOAD makes of B51. -/
def loaded51 : State := after (exec .load b51)

/-- M16 of V7: CREATED mono 16-bit 44100 Hz. -/
def m16 : State := after (exec .create { idle with arg0 := 44100, arg1 := 0x00100001 })

/-- D8 of V7: CREATED stereo 8-bit 8000 Hz. -/
def d8 : State := after (exec .create { idle with arg0 := 8000, arg1 := 0x00080002 })

/-- D8 with the buffers of V7 row 1: LEFT [0.0], RIGHT [1.0]. -/
def d8Full : State :=
  { d8 with
    left := cellsFrom 0 [0], right := cellsFrom 0 [0x3F800000], leftLen := 1, rightLen := 1, rPresent := true }

/-- M16 with the buffers of V7 row 6: LEFT [1.0, −1.0]. -/
def m16Full : State := { m16 with left := cellsFrom 0 [0x3F800000, 0xBF800000], leftLen := 2, rightLen := 5 }

/-- M16 populated (V7 row 6). -/
def m16Done : State := after (exec .setData m16Full)

/-- A state with a latched word and this many steps left before the engine moves. -/
def latched (s : State) (w : Word) (n : Nat) : State := { s with pend := some w, wait := n }

/-! ## Encoding and WellFormed -/

/-- 30_encoding R90, R91: OPC 0x01 in bits 7:0, 24 zeros above. -/
theorem test_decode_load : decode 0b000000000000000000000000_00000001 = .ok .load := by decide
theorem test_decode_create : decode 0b000000000000000000000000_00000010 = .ok .create := by decide
theorem test_decode_setData : decode 0b000000000000000000000000_00000011 = .ok .setData := by decide
theorem test_decode_getData : decode 0b000000000000000000000000_00000100 = .ok .getData := by decide
theorem test_decode_destroy : decode 0b000000000000000000000000_00000101 = .ok .destroy := by decide

/-- V10 rows 1 to 6. -/
theorem test_decode_illegal :
    decode 0x00000000 = .error .unassignedOpcode ∧ decode 0x00000006 = .error .unassignedOpcode ∧
    decode 0x000000FF = .error .unassignedOpcode ∧ decode 0x00000101 = .error .reservedBits ∧
    decode 0x80000003 = .error .reservedBits ∧ decode 0x00000103 = .error .reservedBits := by decide

theorem test_decodeTableWord :
    decodeTableWord 32 5 = some .destroy ∧ decodeTableWord 32 0 = none ∧ decodeTableWord 32 (2 ^ 32 + 1) = none := by
  decide

/-- WellFormed refuses one header too little, one byte too much, and channel buffers on either side of their range
(00_scope R6, R7). -/
theorem test_wellFormed_smoke :
    smallCfg.WellFormed ∧ Config.atReset.WellFormed ∧
    ¬({ bufBytes := 43, maxFrames := 20 } : Config).WellFormed ∧
    ¬({ bufBytes := 2 ^ 28 + 45, maxFrames := 2 ^ 28 } : Config).WellFormed ∧
    ¬({ bufBytes := 64, maxFrames := 19 } : Config).WellFormed ∧
    ¬({ bufBytes := 64, maxFrames := 2 ^ 28 + 1 } : Config).WellFormed := by decide

/-- Every command is well-formed: format CMD32 has no operand field (30_encoding R95). -/
theorem test_wellFormed_instr :
    Instr.wellFormed .load = true ∧ Instr.wellFormed .create = true ∧ Instr.wellFormed .setData = true ∧
    Instr.wellFormed .getData = true ∧ Instr.wellFormed .destroy = true := by decide

/-- A fetched word runs: LOAD of an empty document is TOO_SMALL (V1.3 with len 0). -/
theorem test_withFetchWord : endsWith (step (State.reset.withFetchWord 32 1)) .tooSmall = true := by decide +kernel

/-! ## Commands -/

/-- V5 row 1. -/
theorem test_load_b51 :
    loaded51.errCode = .none ∧ loaded51.docState = .loaded ∧ loaded51.nSamples = 3 ∧ loaded51.hdr.chunkSize = 43 ∧
    loaded51.hdr.blockAlign = 2 ∧ loaded51.byteLen = 51 := by decide +kernel

/-- V5 rows 4, 7, 8, 10, 13, 16. -/
theorem test_load_checks :
    endsWith (exec .load { b51 with byteLen := 43 }) .tooSmall = true ∧
    endsWith (exec .load (b51With 3 0x58)) .none = true ∧
    endsWith (exec .load { b51With 3 0x58 with magicAnd := true }) .notWav = true ∧
    endsWith (exec .load { b51 with byteLen := 50 }) .dataSizeMismatch = true ∧
    endsWith (exec .load (b51With 34 0x18)) .invalidBitsPerSample = true ∧
    endsWith (exec .load (b51With 22 3)) .invalidNumChannels = true := by decide +kernel

/-- V6 rows 1 and 2. -/
theorem test_create :
    m16.docState = .created ∧ m16.hdr.byteRate = 88200 ∧ m16.hdr.blockAlign = 2 ∧ m16.hdr.chunkSize = 0 ∧
    m16.statusWord = 0x20 ∧ d8.hdr.byteRate = 16000 ∧ d8.hdr.blockAlign = 2 := by decide +kernel

/-- V6 rows 5, 8 and 10: the wrapped byte rate, bits before channels, and a channel count of 257. -/
theorem test_create_corners :
    (after (exec .create { idle with arg0 := 0x40000000, arg1 := 0x00100002 })).hdr.byteRate = 0 ∧
    endsWith (exec .create { idle with arg1 := 0x00180000 }) .invalidBitsPerSample = true ∧
    endsWith (exec .create { idle with arg1 := 0x00080101 }) .invalidNumChannels = true := by decide +kernel

/-- V7 row 6: payload `FF 7F 01 80` after a header of chunk size 40. -/
theorem test_setData_m16 :
    m16Done.docState = .populated ∧ m16Done.byteLen = 48 ∧ m16Done.hdr.chunkSize = 40 ∧
    memRead m16Done 44 4 = 0x80017FFF ∧ memRead m16Done 4 4 = 40 := by decide +kernel

/-- V7 row 12: LEFT is scanned before RIGHT. -/
theorem test_setData_order :
    let t := after (exec .setData { d8Full with
      left := cellsFrom 0 [0, 0, 0, 0, 0, 0x40000000], right := cellsFrom 0 [0x7FC00000, 0, 0, 0, 0, 0]
      leftLen := 6, rightLen := 6 })
    t.errcodeWord = 0x00000007 ∧ t.errIndex = 5 ∧ t.errValue = 0x40000000 ∧ t.docState = .created := by
  decide +kernel

/-- V8 row 1. -/
theorem test_getData_b51 :
    let t := after (exec .getData loaded51)
    t.left.map Prod.snd = [0xBF800000, 0x00000000, 0x3F800000] ∧
    t.right.map Prod.snd = [0x3F800000, 0x3C010204, 0xBF7DFBF8] ∧
    t.leftLen = 3 ∧ t.rightLen = 3 ∧ t.rPresent = true := by decide +kernel

/-- V8 row 6. -/
theorem test_getData_gated : endsWith (exec .getData m16) .invalidState = true := by decide +kernel

/-- V9 row 1. -/
theorem test_destroy :
    let t := after (exec .destroy loaded51)
    t.statusWord = 0x40 ∧ t.hdr = Header.zero ∧ t.nSamples = 0 ∧ t.byteLen = 0 ∧ t.byte = [] := by decide +kernel

/-- V9 row 5. -/
theorem test_destroy_again :
    (after (exec .destroy (after (exec .destroy loaded51)))).statusWord = 0x42 := by decide +kernel

/-! ## The converter -/

/-- V2.1 and V2.2. -/
theorem test_unpack_scalars :
    u8ToF32 1 = 0xBF7DFBF8 ∧ u8ToF32 126 = 0xBC010204 ∧ u8ToF32 200 = 0x3F13264D ∧ u8ToF32 255 = 0x3F800000 ∧
    s16ToF32 0x8000 = 0xBF800100 ∧ s16ToF32 0xFFFF = 0xB8000100 ∧ s16ToF32 0x4000 = 0x3F000100 := by decide +kernel

/-- V3.1. -/
theorem test_inRange :
    inRange 0xBF800000 = true ∧ inRange 0x80000001 = true ∧ inRange 0x3F800001 = false ∧
    inRange 0xFF800000 = false ∧ inRange 0x7FC00000 = false := by decide +kernel

/-- V3.2. -/
theorem test_pack_scalars :
    f32ToU8 0xBF000000 = 63 ∧ f32ToU8 0x3DCCCCCD = 139 ∧ f32ToU8 0x3B800000 = 127 ∧
    f32ToS16 0xBF7FFFFF = -32766 ∧ f32ToS16 0xBC00F12C = -257 ∧ f32ToS16 0x3F7FBE77 = 32734 := by decide +kernel

/-- 00_scope R12, computed by hand: a tie goes to the even fraction (2^24 + 1 and 2^24 + 3), a subnormal is kept, and a
value past the largest finite one is infinity. -/
theorem test_rne32 :
    rne32 ((2 ^ 24 + 1) * 2 ^ 149) 1 = 0x4B800000 ∧ rne32 ((2 ^ 24 + 3) * 2 ^ 149) 1 = 0x4B800002 ∧
    rne32 (-1) 1 = 0x80000001 ∧ rne32 1 3 = 0x00000000 ∧ rne32 (2 ^ 277) 1 = 0x7F800000 := by decide +kernel

/-! ## The bus and the resets -/

/-- V11 rows 3, 4, 5, 14, 15, 17, 19, 20: illegal transactions, with BUF_BYTES 64 and MAX_FRAMES 20. -/
theorem test_illegal_targets :
    target smallCfg 0x00000000 .b2 = none ∧ target smallCfg 0x00000002 .b4 = none ∧
    target smallCfg 0x00001000 .b4 = none ∧ target smallCfg 0x40000001 .b2 = none ∧
    target smallCfg 0x40000002 .b4 = none ∧ target smallCfg 0x40000040 .b1 = none ∧
    target smallCfg 0x80000000 .b2 = none ∧ target smallCfg 0x80000050 .b4 = none ∧
    target smallCfg 0x4000003C .b4 = some (.byte 60) ∧ target smallCfg 0xC000004C .b4 = some (.right 19) := by decide

/-- V11 row 13: little-endian bytes and half of a word. -/
theorem test_byte_aperture :
    let t := after (transact (.write 0x40000000 .b4 0x46464952) idle)
    (after (transact (.read 0x40000000 .b1) t)).reply = .data 0x52 ∧
    (after (transact (.read 0x40000002 .b2) t)).reply = .data 0x4646 := by decide +kernel

/-- V11 rows 9 and 12. -/
theorem test_ctrl_status_writes :
    (after (transact (.write 0x00000008 .b4 0xFFFFFFFD) idle)).ctrlWord = 1 ∧
    (after (transact (.write 0x0000000C .b4 0xFFFFFFFB) { idle with overrun := true })).overrun = true := by
  decide +kernel

/-- V11 rows 23 and 25: a CMD write while BUSY is dropped, and STATUS reads exactly. -/
theorem test_busy :
    let t := after (transact (.write 0x00000010 .b4 1) (latched m16Full 3 1))
    t.pend = some 3 ∧ t.overrun = true ∧ (after (transact (.read 0x0000000C .b4) t)).reply = .data 0x25 := by
  decide +kernel

/-- V12 rows 2 and 3: the soft reset keeps the buffers when idle and forgets them when it aborts a command. -/
theorem test_soft_reset :
    (State.softReset m16Full).left = m16Full.left ∧ (State.softReset m16Full).statusWord = 0 ∧
    (State.softReset (latched m16Full 3 1)).left = [] ∧ (State.softReset (latched m16Full 3 1)).pend = none := by
  decide +kernel

/-! ## Witnesses: states and operands that meet the hypotheses of each statement -/

theorem test_witness_DecodeIsTheOpcodeMap :
    ((0x00000100 : Word).extractLsb' 8 24 ≠ 0 ∧ (0xFFFFFF03 : Word).extractLsb' 8 24 ≠ 0) ∧
    ((0x00000001 : Word).extractLsb' 8 24 = 0 ∧ (0x00000001 : Word).extractLsb' 0 8 = 0x01) ∧
    ((0x00000005 : Word).extractLsb' 8 24 = 0 ∧ (0x00000005 : Word).extractLsb' 0 8 = 0x05) ∧
    ((0x00000000 : Word).extractLsb' 8 24 = 0 ∧ (0x00000000 : Word).extractLsb' 0 8 = 0x00) ∧
    ((0x00000006 : Word).extractLsb' 8 24 = 0 ∧ 0x06 ≤ ((0x00000006 : Word).extractLsb' 0 8).toNat) ∧
    ((0x000000FF : Word).extractLsb' 8 24 = 0 ∧ 0x06 ≤ ((0x000000FF : Word).extractLsb' 0 8).toNat) := by decide

theorem test_witness_DecodeEncodeRoundTrip :
    Instr.wellFormed .setData = true ∧ decode 0x00000003 = .ok .setData := by decide

theorem test_witness_IllegalWordsCompleteIllegalCommand :
    ((latched idle 0x00000101 0).pend = some 0x00000101 ∧ (latched idle 0x00000101 0).wait = 0 ∧
      (0x00000101 : Word).extractLsb' 8 24 ≠ 0) ∧
    ((latched loaded51 0x00000006 0).pend = some 0x00000006 ∧ (latched loaded51 0x00000006 0).wait = 0 ∧
      (0x00000006 : Word).extractLsb' 8 24 = 0 ∧ 0x06 ≤ ((0x00000006 : Word).extractLsb' 0 8).toNat) := by
  decide +kernel

theorem test_witness_StepRunsTheLatchedCommand :
    (latched idle 5 0).pend = some 5 ∧ (latched idle 5 0).wait = 0 ∧ decode 5 = .ok .destroy := by decide

theorem test_witness_StepServesTheHost :
    (idle.pend = none ∧ idle.inputs = []) ∧
    (({ idle with inputs := [.poll] } : State).pend = none ∧
      ({ idle with inputs := [.poll] } : State).inputs = .poll :: []) ∧
    ((latched idle 1 1).pend = some 1 ∧ (latched idle 1 1).wait = 0 + 1 ∧ (latched idle 1 1).inputs = []) ∧
    ((latched { idle with inputs := [.hardReset] } 1 7).pend = some 1 ∧
      (latched { idle with inputs := [.hardReset] } 1 7).wait = 6 + 1 ∧
      (latched { idle with inputs := [.hardReset] } 1 7).inputs = .hardReset :: []) := by decide

/-- Actions that come after the completion may be anything: here a reset and an illegal transaction. -/
theorem test_witness_LatchedCommandCompletes :
    let s := latched { idle with inputs := [.poll, scriptW32 0x00000020 5, .hardReset, scriptW8 0x00000000 1] } 1 2
    s.pend = some 1 ∧
      ∀ a ∈ s.inputs.take s.wait, HostAction.legal s.cfg a = true ∧ HostAction.resets s.cfg a = false := by decide

/-- One step with no action to come, and one in which a soft reset discards the command. -/
theorem test_witness_LatchedCommandInputsAreStable :
    (∃ t, step (latched idle 1 1) = .next t) ∧
    (∃ t, step (latched { idle with inputs := [scriptW32 0x00000008 2] } 1 1) = .next t) ∧
    (latched idle 1 1).pend = some 1 ∧ (latched idle 1 1).wait ≠ 0 :=
  ⟨⟨_, rfl⟩, by
    have h : endsWith (step (latched { idle with inputs := [scriptW32 0x00000008 2] } 1 1)) .none = true := by
      decide +kernel
    exact (endsWith_next h).imp fun _ h => h.1, rfl, by decide⟩

theorem test_witness_LegalHostsNeverFault :
    let s : State := { idle with
      inputs := [.poll, .hardReset, scriptW8 0x4000003F 1, scriptW32 0x00000FFC 1, scriptR32 0x8000004C] }
    ∀ a ∈ s.inputs, HostAction.legal s.cfg a = true := by decide

/-- Each side of R171 for each command. -/
theorem test_witness_CommandsAreGatedByDocState :
    (loaded51.docState ≠ .uninit ∧ b51.docState = .uninit) ∧
    (idle.docState ≠ .created ∧ idle.docState ≠ .populated ∧ m16.docState = .created ∧ m16Done.docState = .populated) ∧
    (m16.docState ≠ .loaded ∧ m16.docState ≠ .populated ∧ loaded51.docState = .loaded) ∧
    (after (exec .destroy m16)).docState = .destroyed := by decide +kernel

/-- CommandsRaiseOnlyTheirCodes and OverrunAffectsNoCommand: every command answers a next state everywhere. -/
theorem test_witness_exec_next : ∃ t, exec .getData loaded51 = .next t := exec_always_completes _ _

/-- CommandsWriteOnlyTheirState: for each command a state with the invariant in which it succeeds. -/
theorem test_witness_CommandsWriteOnlyTheirState :
    (b51.Inv ∧ ∃ t, exec .load b51 = .next t ∧ t.errCode = .none) ∧
    (({ idle with arg1 := 0x00100001 } : State).Inv ∧
      ∃ t, exec .create { idle with arg1 := 0x00100001 } = .next t ∧ t.errCode = .none) ∧
    (d8Full.Inv ∧ ∃ t, exec .setData d8Full = .next t ∧ t.errCode = .none) ∧
    (m16Done.Inv ∧ m16Done.hdr.numChannels = 1 ∧ ∃ t, exec .getData m16Done = .next t ∧ t.errCode = .none) ∧
    (loaded51.Inv ∧ ∃ t, exec .destroy loaded51 = .next t ∧ t.errCode = .none) :=
  ⟨⟨inv_of_check (by decide +kernel), endsWith_next (by decide +kernel)⟩,
    ⟨inv_of_check (by decide +kernel), endsWith_next (by decide +kernel)⟩,
    ⟨inv_of_check (by decide +kernel), endsWith_next (by decide +kernel)⟩,
    ⟨inv_of_check (by decide +kernel), by decide +kernel, endsWith_next (by decide +kernel)⟩,
    ⟨inv_of_check (by decide +kernel), endsWith_next (by decide +kernel)⟩⟩

/-- FailedCommandsChangeNothingElse and the three clauses of DocumentStateMachine. -/
theorem test_witness_FailedCommandsChangeNothingElse :
    ∃ t, exec .create idle = .next t ∧ t.errCode ≠ .none :=
  (endsWith_next (c := .invalidBitsPerSample) (by decide +kernel)).imp fun _ h => ⟨h.1, by rw [h.2]; decide⟩

theorem test_witness_DocumentStateMachine :
    (∃ t, exec .load b51 = .next t ∧ t.errCode = .none) ∧ (∃ t, exec .load idle = .next t ∧ t.errCode = .tooSmall) ∧
    (∃ t, exec .load loaded51 = .next t ∧ t.errCode = .invalidState) :=
  ⟨endsWith_next (by decide +kernel), endsWith_next (by decide +kernel), endsWith_next (by decide +kernel)⟩

/-- Two states that differ outside what the commands read and agree on all of it, for each of the five clauses. -/
theorem test_witness_CommandsReadOnlyTheirOperands :
    (let s := b51; let s' : State := { b51 with arg0 := 7, leftLen := 9, overrun := true }
      s.Inv ∧ s'.Inv ∧ s.cfg = s'.cfg ∧ s.draws = s'.draws ∧ s.docState = s'.docState ∧ s.byteLen = s'.byteLen ∧
      s.magicAnd = s'.magicAnd ∧ (∀ a, a < s.byteLen.toNat → byteAt s a = byteAt s' a) ∧
      s.arg1 = s'.arg1 ∧ endsWith (exec .load s) .none = true ∧ endsWith (exec .load s') .none = true) ∧
    (let s := d8Full; let s' : State := { d8Full with arg0 := 7, byteLen := 9, magicAnd := true }
      s.Inv ∧ s'.Inv ∧ s.hdr = s'.hdr ∧ s.leftLen = s'.leftLen ∧ s.rightLen = s'.rightLen ∧
      s.rPresent = s'.rPresent ∧
      (∀ i, i < s.leftLen.toNat → leftAt s i = leftAt s' i ∧ rightAt s i = rightAt s' i) ∧
      endsWith (exec .setData s) .none = true ∧ endsWith (exec .setData s') .none = true) ∧
    (let s := loaded51; let s' : State := { loaded51 with leftLen := 9, byteLen := 3 }
      s.Inv ∧ s'.Inv ∧ s.hdr = s'.hdr ∧ s.nSamples = s'.nSamples ∧ (∀ a, 44 ≤ a → byteAt s a = byteAt s' a) ∧
      endsWith (exec .getData s) .none = true ∧ endsWith (exec .getData s') .none = true ∧
      endsWith (exec .destroy s) .none = true ∧ endsWith (exec .destroy s') .none = true) ∧
    (let s : State := { idle with arg1 := 0x00080002 }; let s' : State := { idle with arg1 := 0x00080002, byteLen := 5 }
      s.Inv ∧ s'.Inv ∧ s.arg0 = s'.arg0 ∧ s.arg1 = s'.arg1 ∧
      endsWith (exec .create s) .none = true ∧ endsWith (exec .create s') .none = true) := by
  refine ⟨⟨inv_of_check (by decide +kernel), inv_of_check (by decide +kernel), rfl, rfl, rfl, rfl, rfl,
      fun _ _ => rfl, rfl, by decide +kernel, by decide +kernel⟩,
    ⟨inv_of_check (by decide +kernel), inv_of_check (by decide +kernel), rfl, rfl, rfl, rfl, fun _ _ => ⟨rfl, rfl⟩,
      by decide +kernel, by decide +kernel⟩,
    ⟨inv_of_check (by decide +kernel), inv_of_check (by decide +kernel), rfl, rfl, fun _ _ => rfl,
      by decide +kernel, by decide +kernel, by decide +kernel, by decide +kernel⟩,
    ⟨inv_of_check (by decide +kernel), inv_of_check (by decide +kernel), rfl, rfl, by decide +kernel,
      by decide +kernel⟩⟩

/-- HdrDecode: both sides of 44, and two states that agree below byte 44 and differ at it. -/
theorem test_witness_HdrDecodeReadsTheFixedOffsets :
    43 < 44 ∧ 44 ≤ 44 ∧ (∀ a, a < 44 → byteAt b51 a = byteAt (b51With 44 9) a) ∧
      byteAt b51 44 ≠ byteAt (b51With 44 9) 44 :=
  ⟨by decide, by decide, by
    intro a ha
    simp only [byteAt, b51With]
    rw [Cells.find_put_ne _ _ (by omega)], by decide +kernel⟩

theorem test_witness_HdrEncodeWritesTheFixedOffsets :
    ∃ s : State, s.byte = hdrEncode d8.hdr [(44, 7)] := ⟨{ idle with byte := hdrEncode d8.hdr [(44, 7)] }, rfl⟩

theorem test_witness_HeaderRoundTrip : 44 ≤ 44 := by decide

/-- V1.1 at the largest payload. -/
theorem test_witness_DerivedFieldsFollowTheFormulas :
    ((2 : Half) = 1 ∨ (2 : Half) = 2) ∧ ((16 : Half) = 8 ∨ (16 : Half) = 16) ∧ 2 ^ 28 ≤ 2 ^ 28 := by decide

/-- LOAD: a state for each check, in their order, and for the success, at the boundary lengths and values. -/
theorem test_witness_LoadFollowsItsRule :
    b51.docState = .uninit ∧
    b51.cfg.bufBytes < ({ b51 with byteLen := 65 } : State).byteLen.toNat ∧
    (({ b51 with byteLen := 43 } : State).byteLen.toNat ≤ b51.cfg.bufBytes ∧
      ({ b51 with byteLen := 43 } : State).byteLen.toNat < 44) ∧
    (44 ≤ (b51With 3 0x58).byteLen.toNat ∧ (headerFields (b51With 3 0x58)).chunkId ≠ 0x46464952) ∧
    ((headerFields { b51 with byteLen := 50 }).chunkId = 0x46464952 ∧
      (50 : Word).toNat ≠ 44 + (headerFields { b51 with byteLen := 50 }).dataChunkSize.toNat) ∧
    (b51.byteLen.toNat = 44 + (headerFields (b51With 34 0x18)).dataChunkSize.toNat ∧
      (headerFields (b51With 34 0x18)).chunkId = 0x46464952 ∧
      (headerFields (b51With 34 0x18)).bitsPerSample = 24) ∧
    (b51.byteLen.toNat = 44 + (headerFields (b51With 22 3)).dataChunkSize.toNat ∧
      (headerFields (b51With 22 3)).chunkId = 0x46464952 ∧ (headerFields (b51With 22 3)).bitsPerSample = 8 ∧
      (headerFields (b51With 22 3)).numChannels = 3) ∧
    (b51.byteLen.toNat = 44 + (headerFields b51).dataChunkSize.toNat ∧ (headerFields b51).chunkId = 0x46464952 ∧
      (headerFields b51).bitsPerSample = 8 ∧ (headerFields b51).numChannels = 2 ∧ b51.magicAnd = false) := by
  decide +kernel

/-- CREATE: ARG1 for each check and for the success. -/
theorem test_witness_CreateFollowsItsRule :
    idle.docState = .uninit ∧
    ((0x00180001 : Word).toNat / 65536 ≠ 8 ∧ (0x00180001 : Word).toNat / 65536 ≠ 16) ∧
    ((0x00100003 : Word).toNat / 65536 = 16 ∧ (0x00100003 : Word).toNat % 65536 = 3) ∧
    ((0x00080002 : Word).toNat / 65536 = 8 ∧ (0x00080002 : Word).toNat % 65536 = 2) := by decide

/-- SET_DATA: a CREATED document with the invariant for each check of PackValidate, in their order (V7 rows 5, 2, 3, 7,
8, 11, 13), and for the success at the largest payload (10 frames of 2 bytes in 20). -/
theorem test_witness_SetDataChecksInOrder :
    let a : State := { m16Full with rPresent := true }
    let b : State := { d8Full with rPresent := false }
    let c : State := { d8Full with rightLen := 2 }
    let d : State := { m16Full with leftLen := 21 }
    let e : State := { m16Full with leftLen := 11 }
    let f : State := { m16Full with left := cellsFrom 0 [0x3F800000, 0x3F800001] }
    let g : State := { d8Full with right := cellsFrom 0 [0xFF800000] }
    let h : State := { m16Full with left := cellsFrom 0 [0, 0, 0, 0, 0, 0, 0, 0, 0, 0], leftLen := 10 }
    (a.Inv ∧ b.Inv ∧ c.Inv ∧ d.Inv ∧ e.Inv ∧ f.Inv ∧ g.Inv ∧ h.Inv) ∧
    (a.docState = .created ∧ a.hdr.numChannels.toNat = 1 ∧ a.rPresent = true) ∧
    (b.docState = .created ∧ b.hdr.numChannels.toNat = 2 ∧ b.rPresent = false) ∧
    (c.docState = .created ∧ c.hdr.numChannels.toNat = 2 ∧ c.rPresent = true ∧ c.rightLen ≠ c.leftLen) ∧
    (d.docState = .created ∧ d.hdr.numChannels.toNat = 1 ∧ d.rPresent = false ∧ ¬(d.leftLen.toNat ≤ d.cfg.maxFrames)) ∧
    (e.docState = .created ∧ e.hdr.numChannels.toNat = 1 ∧ e.rPresent = false ∧ e.leftLen.toNat ≤ e.cfg.maxFrames ∧
      ¬(e.leftLen.toNat * (1 * (e.hdr.bitsPerSample.toNat / 8)) ≤ e.cfg.bufBytes - 44)) ∧
    (f.docState = .created ∧ f.hdr.numChannels.toNat = 1 ∧ f.rPresent = false ∧ 1 < f.leftLen.toNat ∧
      inRange (leftAt f 0) = true ∧ inRange (leftAt f 1) = false) ∧
    (g.docState = .created ∧ g.hdr.numChannels.toNat = 2 ∧ g.rPresent = true ∧ g.rightLen = g.leftLen ∧
      g.leftLen.toNat = 1 ∧ inRange (leftAt g 0) = true ∧ inRange (rightAt g 0) = false) ∧
    (h.docState = .created ∧ h.hdr.numChannels.toNat = 1 ∧ h.rPresent = false ∧
      h.leftLen.toNat * (1 * (h.hdr.bitsPerSample.toNat / 8)) = h.cfg.bufBytes - 44 ∧
      ∀ j, j < h.leftLen.toNat → inRange (leftAt h j) = true) :=
  ⟨⟨inv_of_check (by decide +kernel), inv_of_check (by decide +kernel), inv_of_check (by decide +kernel),
    inv_of_check (by decide +kernel), inv_of_check (by decide +kernel), inv_of_check (by decide +kernel),
    inv_of_check (by decide +kernel), inv_of_check (by decide +kernel)⟩, by decide +kernel, by decide +kernel,
    by decide +kernel, by decide +kernel, by decide +kernel, by decide +kernel, by decide +kernel, by decide +kernel⟩

/-- SET_DATA on V7 row 1 (stereo, 8 bits) and row 6 (mono, 16 bits): every hypothesis. -/
theorem test_witness_SetDataWritesTheDocument :
    (d8Full.Inv ∧ m16Full.Inv) ∧
    (d8Full.docState = .created ∧ d8Full.hdr.numChannels.toNat = 2 ∧ d8Full.rPresent = true ∧
      d8Full.rightLen = d8Full.leftLen ∧ d8Full.leftLen.toNat ≤ d8Full.cfg.maxFrames ∧
      d8Full.leftLen.toNat * (2 * (8 / 8)) ≤ d8Full.cfg.bufBytes - 44 ∧
      (∀ j, j < d8Full.leftLen.toNat → inRange (leftAt d8Full j) = true) ∧
      (∀ j, j < d8Full.leftLen.toNat → inRange (rightAt d8Full j) = true) ∧ d8Full.hdr.bitsPerSample.toNat = 8) ∧
    (m16Full.docState = .created ∧ m16Full.hdr.numChannels.toNat = 1 ∧ m16Full.rPresent = false ∧
      m16Full.leftLen.toNat ≤ m16Full.cfg.maxFrames ∧
      m16Full.leftLen.toNat * (1 * (16 / 8)) ≤ m16Full.cfg.bufBytes - 44 ∧
      (∀ j, j < m16Full.leftLen.toNat → inRange (leftAt m16Full j) = true) ∧
      m16Full.hdr.bitsPerSample.toNat = 16) :=
  ⟨⟨inv_of_check (by decide +kernel), inv_of_check (by decide +kernel)⟩, by decide +kernel⟩

/-- GET_DATA on a loaded stereo 8-bit and on a populated mono 16-bit document. -/
theorem test_witness_GetDataUnpacksTheDocument :
    (loaded51.Inv ∧ m16Done.Inv) ∧
    (loaded51.docState = .loaded ∧ loaded51.hdr.numChannels.toNat = 2 ∧ loaded51.hdr.bitsPerSample.toNat = 8 ∧
      2 < loaded51.nSamples.toNat) ∧
    (m16Done.docState = .populated ∧ m16Done.hdr.numChannels.toNat = 1 ∧ m16Done.hdr.bitsPerSample.toNat = 16 ∧
      1 < m16Done.nSamples.toNat) :=
  ⟨⟨inv_of_check (by decide +kernel), inv_of_check (by decide +kernel)⟩, by decide +kernel⟩

/-- The clauses of the five command statements for a document state that does not allow the command, and for an error of
PackValidate. -/
theorem test_witness_disallowed :
    loaded51.docState ≠ .uninit ∧ m16.docState ≠ .uninit ∧
    (loaded51.Inv ∧ loaded51.docState ≠ .created ∧ loaded51.docState ≠ .populated) ∧
    (m16Full.Inv ∧ m16Full.docState ≠ .loaded ∧ m16Full.docState ≠ .populated) ∧ idle.docState = .uninit ∧
    ∃ e, packValidate d8 = .error e :=
  ⟨by decide +kernel, by decide +kernel, ⟨inv_of_check (by decide +kernel), by decide +kernel⟩,
    ⟨inv_of_check (by decide +kernel), by decide +kernel⟩, rfl,
    { code := .invalidNumChannels, info := SampleInfo.absent }, by
      have h1 : d8.hdr.numChannels.toNat = 2 := by decide +kernel
      have h2 : d8.rPresent = false := by decide +kernel
      simp [packValidate, h1, h2, raise]⟩

theorem test_witness_DestroyReleasesTheDocument :
    loaded51.docState = .loaded ∧ m16.docState = .created ∧ m16Done.docState = .populated := by decide +kernel

theorem test_witness_ToBytesIsTheDocument :
    (b51.Inv ∧ m16Full.Inv) ∧ (∃ t, exec .load b51 = .next t ∧ t.errCode = .none) ∧
      (∃ t, exec .setData m16Full = .next t ∧ t.errCode = .none) :=
  ⟨⟨inv_of_check (by decide +kernel), inv_of_check (by decide +kernel)⟩, endsWith_next (by decide +kernel),
    endsWith_next (by decide +kernel)⟩

/-- The largest magnitude that rounds to a finite value by the bound, exactly, and a tie. -/
theorem test_witness_RoundingIsToNearestTiesToEven :
    (0 < 3 ∧ (3 * f32Mag 0x7F7FFFFF : Int).natAbs ≤ 3 * f32Mag 0x7F7FFFFF ∧ f32Exp 0x7F7FFFFF ≠ 255) ∧
    (let v := rne32 (2 ^ 24 + 1) 1;
      (f32Units v * 1 - (2 ^ 24 + 1)).natAbs = (f32Units 0x01000001 * 1 - (2 ^ 24 + 1)).natAbs ∧
      f32Units 0x01000001 ≠ f32Units v ∧ f32Exp 0x01000001 ≠ 255) := by decide +kernel

/-- PackRoundsThenTruncates, U8UnpackIsRoundedAndClamped, RawRoundTrip, ConverterOutputRanges and QuantisationBound:
operands at the bounds of their hypotheses, and neighbours of the patterns they except. -/
theorem test_witness_converter :
    inRange 0x3F800000 = true ∧ inRange 0xBF800000 = true ∧ inRange 0x00000001 = true ∧
    (254 : Byte) ≠ 255 ∧ (0 : Byte) ≠ 255 ∧ (0x8001 : Half) ≠ 0x8000 ∧ (0x7FFF : Half) ≠ 0x8000 := by decide +kernel

theorem test_witness_PackThenUnpackIsWithinOneStep :
    d8Full.Inv ∧ (∃ t, exec .setData d8Full = .next t ∧ t.errCode = .none) ∧ 0 < d8Full.leftLen.toNat ∧
      d8Full.hdr.bitsPerSample = 8 ∧ d8Full.hdr.numChannels = 2 ∧
      m16Full.Inv ∧ (∃ t, exec .setData m16Full = .next t ∧ t.errCode = .none) ∧ m16Full.hdr.bitsPerSample = 16 :=
  ⟨inv_of_check (by decide +kernel), endsWith_next (by decide +kernel), by decide +kernel, by decide +kernel,
    by decide +kernel, inv_of_check (by decide +kernel), endsWith_next (by decide +kernel), by decide +kernel⟩

/-- A legal transaction of each aperture at its last location, and illegal ones: just past each, misaligned, and of a
wrong size (V11). -/
theorem test_witness_BusErrorExactlyOnIllegalTransactions :
    let legal (a n : Nat) : Bool :=
      (a < 0x1000 ∧ n = 4 ∧ a % 4 = 0) ∨
      (0x40000000 ≤ a ∧ a + n ≤ 0x40000000 + idle.cfg.bufBytes ∧ a % n = 0) ∨
      (0x80000000 ≤ a ∧ a + 4 ≤ 0x80000000 + 4 * idle.cfg.maxFrames ∧ n = 4 ∧ a % 4 = 0) ∨
      (0xC0000000 ≤ a ∧ a + 4 ≤ 0xC0000000 + 4 * idle.cfg.maxFrames ∧ n = 4 ∧ a % 4 = 0)
    idle.cfg.WellFormed ∧
    (legal 0x00000FFC 4 && legal 0x4000003E 2 && legal 0x8000004C 4 && legal 0xC000004C 4) = true ∧
    (legal 0x00001000 4 || legal 0x00000000 2 || legal 0x40000040 1 || legal 0x4000003F 2 || legal 0x80000050 4 ||
      legal 0xC0000002 4 || legal 0xC0000000 1) = false := by decide

theorem test_witness_ReadsHaveNoSideEffects : ∃ t, transact (.read 0x4000003E .b2) idle = .next t :=
  (endsWith_next (c := .none) (by decide +kernel)).imp fun _ h => h.1

theorem test_witness_ByteApertureIsLittleEndianMemory :
    idle.cfg.WellFormed ∧ idle.pend = none ∧ (0x4000003C : Word).toNat = 0x40000000 + 60 ∧ 60 % Size.b4.bytes = 0 ∧
      60 + Size.b4.bytes ≤ idle.cfg.bufBytes := by decide

theorem test_witness_ChannelAperturesStoreVerbatim :
    idle.cfg.WellFormed ∧ idle.pend = none ∧ 19 < idle.cfg.maxFrames ∧
      (0x8000004C : Word).toNat = 0x80000000 + 4 * 19 ∧ (0xC000004C : Word).toNat = 0xC0000000 + 4 * 19 := by decide

/-- ArgumentRegistersAreReadWrite, ResultRegistersReadBack, HeaderRegistersReadBack, CtrlHoldsTheMagicPolicy,
CmdWriteLatchesTheWord, SoftResetIdleAndAborting and PollRepeatsWhileBusy: an idle and a busy state, a CTRL word with
bit 1 clear and one with it set. -/
theorem test_witness_idle_and_busy :
    idle.pend = none ∧ (latched idle 3 1).pend = some 3 ∧ (0xFFFFFFFD : Word).getLsbD 1 = false ∧
      (0x00000003 : Word).getLsbD 1 = true := by decide

/-- The first and the last offset of each range. -/
theorem test_witness_ReservedAndReadOnlyOffsetsIgnoreWrites :
    idle.pend = none ∧
    (∀ a ∈ [(0x000 : Word), 0x004, 0x014, 0x01C, 0x038, 0xFFC], a.toNat % 4 = 0 ∧
      (a.toNat < 0x008 ∨ (0x014 ≤ a.toNat ∧ a.toNat < 0x020) ∨ (0x038 ≤ a.toNat ∧ a.toNat < 0x1000))) ∧
    (∀ a ∈ [(0x010 : Word), 0x03C, 0x074, 0xFFC], a.toNat % 4 = 0 ∧
      (a.toNat = 0x010 ∨ a.toNat = 0x03C ∨ (0x074 ≤ a.toNat ∧ a.toNat < 0x1000))) :=
  ⟨rfl, by simp, by simp⟩

theorem test_witness_BusyWritesAreDropped :
    (latched idle 3 1).pend = some 3 ∧
    HostAction.legal (latched idle 3 1).cfg (.bus (.write 0x00000010 .b4 1)) = true ∧
    HostAction.legal (latched idle 3 1).cfg (.bus (.write 0x4000003F .b1 1)) = true ∧
    (0x00000010 : Word) ≠ 0x0000000C ∧ (0x00000010 : Word) ≠ 0x00000008 ∧ (0x00000001 : Word).getLsbD 1 = false ∧
    (0x00000002 : Word).getLsbD 1 = true ∧
    HostAction.legal (latched idle 3 1).cfg (.bus (.write 0x40000040 .b1 1)) = false := by decide

theorem test_witness_ResetValues : Reg.at? 0x000 = some .id ∧ Reg.at? 0x070 = some .hdrDataChunkSize := by decide

/-- A step of each kind from a state with the invariant: the engine's, the host's, and a reset. -/
theorem test_witness_InvariantKeptByEveryStep :
    (latched d8Full 3 0).Inv ∧ (∃ t, step (latched d8Full 3 0) = .next t ∧ t.errCode = .none) ∧
      (∃ t, step { d8Full with inputs := [scriptW32 0x80000000 1] } = .next t ∧ t.errCode = .none) ∧
      (∃ t, step { d8Full with inputs := [.hardReset] } = .next t ∧ t.errCode = .none) :=
  ⟨inv_of_check (by decide +kernel), endsWith_next (by decide +kernel), endsWith_next (by decide +kernel),
    endsWith_next (by decide +kernel)⟩

/-- One step of each kind: a command, a soft reset (idle, and of a waiting command), a hardware reset, nothing. -/
theorem test_witness_OnlyCommandsAndResetsChangeTheDocument :
    (∃ t, step (latched b51 1 0) = .next t ∧ t.errCode = .none) ∧
      HostAction.resets smallCfg (scriptW32 0x00000008 2) = true ∧
      (∃ t, step (latched { loaded51 with inputs := [scriptW32 0x00000008 2] } 5 1) = .next t ∧ t.errCode = .none) ∧
      HostAction.resets smallCfg .hardReset = true ∧
      (∃ t, step { loaded51 with inputs := [.hardReset] } = .next t ∧ t.errCode = .none) ∧
      (∃ t, step { loaded51 with inputs := [scriptW32 0x00000008 2] } = .next t ∧ t.errCode = .none) ∧
      (∃ t, step loaded51 = .next t ∧ t.errCode = .none) :=
  ⟨endsWith_next (by decide +kernel), by decide, endsWith_next (by decide +kernel), by decide,
    endsWith_next (by decide +kernel), endsWith_next (by decide +kernel), endsWith_next (by decide +kernel)⟩

end Sys2Proof.Tests
end

section
/-! PROOF. `rne32` is rounding to nearest with ties to even (00_scope R12): a value on the binary32 grid is either a
multiple of the spacing `roundMag` works with, and then `roundQuot_nearest` compares the two multiples, or it lies below
the binade being rounded in, and then the foot of that binade is nearer. -/

namespace Sys2Proof.Machine

/-- The integers binary32 values can be: at every spacing `2^k`, multiples of it or below the binade that has it. -/
def OnFloatGrid (u : Int) : Prop := ∀ k : Nat, (2 ^ k : Int) ∣ u ∨ u < 2 ^ (k + 23)

theorem onFloatGrid_patternMag (p : Nat) : OnFloatGrid (patternMag p) := fun k =>
  (patternMag_grid p k).imp (fun h => by exact_mod_cast h) fun h => by exact_mod_cast h

theorem onFloatGrid_neg_patternMag (p : Nat) : OnFloatGrid (-(patternMag p : Int)) := fun k =>
  .inr (lt_of_le_of_lt (by omega) (show (0 : Int) < 2 ^ (k + 23) by positivity))

theorem onFloatGrid_f32Units (w : Word) : OnFloatGrid (f32Units w) ∧ OnFloatGrid (-f32Units w) := by
  rw [f32Units, f32Mag_eq]
  split
  · exact ⟨onFloatGrid_neg_patternMag _, by rw [neg_neg]; exact onFloatGrid_patternMag _⟩
  · exact ⟨onFloatGrid_patternMag _, onFloatGrid_neg_patternMag _⟩

/-- Rounding does not cross an integer bound of the quotient. -/
theorem roundQuot_le {num d b : Nat} (hd : 0 < d) (h : num ≤ d * b) : roundQuot num d ≤ b := by
  have hq : num / d ≤ b := Nat.div_le_of_le_mul h
  unfold roundQuot
  split
  · next hup =>
    have hne : num / d ≠ b := by
      intro hb
      have hdm := Nat.div_add_mod num d
      rw [hb] at hdm
      omega
    omega
  · exact hq

/-- The largest finite binary32 is 2^24 - 1 at the largest spacing. -/
theorem f32Mag_max : f32Mag 0x7F7FFFFF = 2 ^ 253 * (2 ^ 24 - 1) := by
  rw [f32Mag_eq, Nat.mul_comm]
  exact patternMag_add (k := 253) (q := 2 ^ 24 - 1) (.inr (by omega)) (by omega)

/-- The rounding stays finite up to the largest finite binary32. -/
theorem roundMag_lt_inf {num den : Nat} (hden : 0 < den) (h : num ≤ den * f32Mag 0x7F7FFFFF) :
    roundMag num den < 0x7F800000 := by
  rw [f32Mag_max] at h
  have hk : (num / den).log2 - 23 ≤ 253 := by
    have hlt : num / den < 2 ^ (253 + 24) := by
      rw [pow_add]
      exact lt_of_le_of_lt (Nat.div_le_of_le_mul h) (by norm_num)
    by_cases h0 : num / den = 0
    · simp [h0]
    · have := (Nat.log2_lt h0).2 hlt
      omega
  have hQ := (roundQuot_range num den).1
  rw [roundMag_eq]
  generalize (num / den).log2 - 23 = k at *
  by_cases hk' : k = 253
  · subst hk'
    have := roundQuot_le (d := den * 2 ^ 253) (by positivity) ((Nat.mul_assoc ..).symm ▸ h)
    omega
  · omega

/-- Nothing on the binary32 grid is nearer to `num/den` than the magnitude `roundMag` gives, and on a tie the pattern
it gives is even. -/
theorem roundMag_nearest {num den : Nat} (hden : 0 < den) (hfin : roundMag num den < 0x7F800000) {u : Int}
    (hu : OnFloatGrid u) :
    ((patternMag (roundMag num den) : Int) * den - num).natAbs ≤ (u * den - num).natAbs ∧
    (((patternMag (roundMag num den) : Int) * den - num).natAbs = (u * den - num).natAbs →
      u ≠ patternMag (roundMag num den) → roundMag num den % 2 = 0) := by
  have hrange := (roundQuot_range num den).2
  have hgrid := hu ((num / den).log2 - 23)
  rw [patternMag_roundMag hfin]
  rw [roundMag_eq] at hfin ⊢
  rw [min_eq_left (by omega)]
  generalize (num / den).log2 - 23 = k at *
  have hd : 0 < den * 2 ^ k := by positivity
  have hunits : ∀ j : Int, j * 2 ^ k * den = j * (den * 2 ^ k : Nat) := fun j => by push_cast; ring
  have hparity : (k * 2 ^ 23 + roundQuot num (den * 2 ^ k)) % 2 = roundQuot num (den * 2 ^ k) % 2 := by omega
  have hnear := roundQuot_nearest (num := num) hd
  rw [Nat.cast_mul, Nat.cast_pow, Nat.cast_ofNat, hunits, hparity]
  by_cases hdvd : (2 ^ k : Int) ∣ u
  · obtain ⟨j, rfl⟩ := hdvd
    rw [mul_comm _ j, hunits]
    refine ⟨(hnear j).1, fun htie hne => (hnear j).2 htie ?_⟩
    rintro rfl
    exact hne rfl
  · have hbelow : u < 2 ^ (k + 23) := hgrid.resolve_left hdvd
    have hfoot : 2 ^ 23 * (den * 2 ^ k) ≤ num := by
      have hk : k ≠ 0 := by rintro rfl; simp at hdvd
      exact (Nat.le_div_iff_mul_le hd).1 (hrange.resolve_left hk)
    have hlt : u * den < (2 ^ 23 : Int) * (den * 2 ^ k : Nat) := by
      rw [← hunits, ← pow_add, Nat.add_comm]
      exact Int.mul_lt_mul_of_pos_right hbelow (by exact_mod_cast hden)
    have hle := (hnear (2 ^ 23)).1
    have hstrict : ((2 ^ 23 : Int) * (den * 2 ^ k : Nat) - num).natAbs < (u * den - num).natAbs := by
      omega
    exact ⟨by omega, fun htie => by omega⟩

/-- The bits of a finite rounding: the sign of the number over the magnitude pattern. -/
theorem rne32_toNat {num : Int} {den : Nat} (hfin : roundMag num.natAbs den < 0x7F800000) :
    (rne32 num den).toNat = (if num < 0 then 2 ^ 31 else 0) + roundMag num.natAbs den := by
  rw [rne32, BitVec.toNat_ofNat]
  split <;> omega

theorem rne32_toNat_mod {num : Int} {den : Nat} (hfin : roundMag num.natAbs den < 0x7F800000) :
    (rne32 num den).toNat % 2 ^ 31 = roundMag num.natAbs den := by
  rw [rne32_toNat hfin]
  split <;> omega

/-- The value of a finite rounding: the rounded magnitude with the sign of the number. -/
theorem f32Units_rne32 {num : Int} {den : Nat} (hfin : roundMag num.natAbs den < 0x7F800000) :
    f32Units (rne32 num den) =
      if num < 0 then -(patternMag (roundMag num.natAbs den) : Int) else patternMag (roundMag num.natAbs den) := by
  have hsign : f32Sign (rne32 num den) = decide (num < 0) := by
    rw [f32Sign_eq, rne32_toNat hfin, decide_eq_decide]
    split <;> omega
  rw [f32Units, f32Mag_eq, rne32_toNat_mod hfin, hsign]
  simp only [decide_eq_true_eq]

/-- Nothing on the binary32 grid, on either side of zero, is nearer to `num/den` than `rne32` of it, and on a tie the
fraction `rne32` gives is even. -/
theorem rne32_nearest {num : Int} {den : Nat} (hden : 0 < den) (hfin : roundMag num.natAbs den < 0x7F800000) {u : Int}
    (hpos : OnFloatGrid u) (hneg : OnFloatGrid (-u)) :
    (f32Units (rne32 num den) * den - num).natAbs ≤ (u * den - num).natAbs ∧
    ((f32Units (rne32 num den) * den - num).natAbs = (u * den - num).natAbs → u ≠ f32Units (rne32 num den) →
      f32Frac (rne32 num den) % 2 = 0) := by
  have hfrac : f32Frac (rne32 num den) % 2 = roundMag num.natAbs den % 2 := by
    rw [f32Frac_eq, rne32_toNat_mod hfin]
    omega
  rw [f32Units_rne32 hfin, hfrac]
  split
  · next hnum =>
    have hflip : ∀ x : Int, (-x * den - num).natAbs = (x * den - num.natAbs).natAbs := fun x => by
      rw [← Int.natAbs_neg, show -(-x * den - num) = x * den - num.natAbs by rw [neg_mul]; omega]
    obtain ⟨hle, heven⟩ := roundMag_nearest hden hfin hneg
    rw [← hflip, ← hflip, neg_neg] at hle heven
    exact ⟨hle, fun htie hne => heven htie fun h => hne (by omega)⟩
  · next hnum =>
    have habs : (num.natAbs : Int) = num := Int.natAbs_of_nonneg (by omega)
    have := roundMag_nearest hden hfin hpos
    rwa [habs] at this

end Sys2Proof.Machine

open Sys2Proof Sys2Proof.Machine

/-- Settles O30: the bound keeps the rounding finite, and a binary32 value lies on the grid on which `rne32_nearest`
says that `rne32` is nearest. -/
theorem roundingIsToNearestTiesToEven : Obligations.RoundingIsToNearestTiesToEven := by
  intro num den hden hbound
  have hfin := roundMag_lt_inf hden hbound
  refine ⟨?_, fun w _ => ?_⟩
  · rw [f32Exp_eq, rne32_toNat_mod hfin]
    omega
  · obtain ⟨hpos, hneg⟩ := onFloatGrid_f32Units w
    exact rne32_nearest hden hfin hpos hneg

end

section
/-! PROOF. The REG aperture as the host sees it (10_state R22 to R50): a word read of a named register is its `readReg`,
a word write while BUSY = 0 its `writeReg`, and each statement is the list of its registers at their addresses. -/

namespace Sys2Proof.Machine

/-- The register lies at this bus address, a word of the REG aperture (10_state R22, 20_memory R62). -/
abbrev Reg.LiesAt (r : Reg) (addr : Word) : Prop :=
  addr.toNat < 0x1000 ∧ addr.toNat % 4 = 0 ∧ Reg.at? addr.toNat = some r

theorem readIdle_register {s : State} {off : Nat} {r : Reg} (n : Nat) (hr : Reg.at? off = some r) :
    readIdle s n (.reg off) = readReg s r := by
  rw [readIdle, hr]

theorem readBusy_register {s : State} {off : Nat} {r : Reg} (n : Nat) (hr : Reg.at? off = some r)
    (he : exactWhileBusy r = true) : readBusy s n (.reg off) = readReg s r := by
  rw [readBusy, hr]
  exact if_pos he

/-- A read of a register is exact while BUSY = 0, and of ID, VERSION, CTRL and STATUS always (20_memory R80). -/
theorem read_register {s : State} {addr x : Word} (r : Reg) (hr : r.LiesAt addr)
    (hexact : s.pend = none ∨ exactWhileBusy r = true) (hx : readReg s r = x) :
    transact (.read addr .b4) s = .next (s.respond (.data x)) := by
  obtain ⟨hlt, hal, hr⟩ := hr
  rw [transact_read_reg hlt hal, ← hx]
  rcases hexact with hp | he
  · rw [readTarget_idle hp, readIdle_register 4 hr]
  · rw [readTarget, readIdle_register 4 hr, readBusy_register 4 hr he, ite_self]

/-- A read of a register while BUSY = 0 returns the number it holds, zero-extended (10_state R40). -/
theorem read_register_number {s : State} {addr : Word} {n : Nat} (r : Reg) (hr : r.LiesAt addr)
    (hp : s.pend = none) (hn : (readReg s r).toNat = n) :
    transact (.read addr .b4) s = .next (s.respond (.data (BitVec.ofNat 32 n))) :=
  read_register r hr (.inl hp) (by rw [← hn, BitVec.ofNat_toNat, BitVec.setWidth_eq])

/-- A write of a register while BUSY = 0 (10_state R23). -/
theorem write_register_idle {s t : State} {addr v : Word} (r : Reg) (hr : r.LiesAt addr)
    (hp : s.pend = none) (ht : writeReg s v r = t) :
    transact (.write addr .b4 v) s = .next (t.respond .done) := by
  obtain ⟨hlt, hal, hr⟩ := hr
  rw [transact_write_reg hlt hal, writeTarget_idle hp, writeIdle, hr, ← ht]

/-- A write of STATUS is performed whether or not BUSY = 1 (10_state R32, 20_memory R79). -/
theorem write_status {s t : State} {v : Word} (ht : s.writeStatus v = t) :
    transact (.write 0x0000000C .b4 v) s = .next (t.respond .done) := by
  cases hp : s.pend with
  | none => exact write_register_idle .status (by decide) hp ht
  | some w =>
    rw [transact_write_reg (by decide) (by decide), ← ht]
    simp [writeTarget, writeBusy, hp]

theorem bitField_zero (b : Bool) : bitField b 0 = if b then 1 else 0 := by
  cases b <;> rfl

/-- The fields of STATUS lie side by side, so their union is their sum (10_state R32). -/
theorem status_fields_eq_sum (b e o : Bool) (d : DocState) :
    bitField b 0 ||| bitField e 1 ||| bitField o 2 ||| BitVec.ofNat 32 (d.code * 2 ^ 4) =
      BitVec.ofNat 32 ((if b then 1 else 0) + (if e then 2 else 0) + (if o then 4 else 0) + 16 * d.code) := by
  cases d <;> revert b e o <;> decide

/-- STATUS as a number, with BUSY read off PEND (10_state R29, R32). -/
theorem statusWord_eq (s : State) :
    s.statusWord = BitVec.ofNat 32 ((if s.pend = none then 0 else 1) + (if s.err then 2 else 0) +
      (if s.overrun then 4 else 0) + 16 * s.docState.code) := by
  have hbusy : (if s.busy then 1 else 0) = if s.pend = none then 0 else 1 := by
    unfold State.busy
    cases s.pend <;> rfl
  rw [State.statusWord, status_fields_eq_sum, hbusy]

/-- The fields of ERRCODE lie side by side, so their union is their sum (10_state R34). -/
theorem errcodeWord_eq (s : State) :
    s.errcodeWord = BitVec.ofNat 32 (s.errCode.code + if s.errChan then 256 else 0) := by
  unfold State.errcodeWord
  generalize s.errChan = c
  cases s.errCode <;> revert c <;> decide

end Sys2Proof.Machine

open Sys2Proof Sys2Proof.Machine

/-- Settles O44: each conjunct is `write_register_idle` or `read_register` at the register's address. -/
theorem argumentRegistersAreReadWrite : Obligations.ArgumentRegistersAreReadWrite := fun _ _ hp =>
  ⟨⟨write_register_idle .arg0 (by decide) hp rfl, read_register .arg0 (by decide) (.inl hp) rfl⟩,
    ⟨write_register_idle .arg1 (by decide) hp rfl, read_register .arg1 (by decide) (.inl hp) rfl⟩,
    ⟨write_register_idle .bytelen (by decide) hp rfl, read_register .bytelen (by decide) (.inl hp) rfl⟩,
    ⟨write_register_idle .leftlen (by decide) hp rfl, read_register .leftlen (by decide) (.inl hp) rfl⟩,
    ⟨write_register_idle .rightlen (by decide) hp rfl, read_register .rightlen (by decide) (.inl hp) rfl⟩,
    ⟨write_register_idle .chctl (by decide) hp rfl, read_register .chctl (by decide) (.inl hp) (bitField_zero _)⟩⟩

/-- Settles O46: both registers are among those whose reads stay exact while BUSY = 1. -/
theorem idAndVersionAreConstant : Obligations.IdAndVersionAreConstant := fun _ =>
  ⟨read_register .id (by decide) (.inr rfl) rfl, read_register .version (by decide) (.inr rfl) rfl⟩

/-- Settles O47: the read is `statusWord_eq`, and clearing by a 1 is the conjunction with its complement. -/
theorem statusReadsAndWrites : Obligations.StatusReadsAndWrites := by
  intro s v
  have hclear : s.writeStatus v = { s with overrun := if v.getLsbD 2 then false else s.overrun } := by
    unfold State.writeStatus
    cases v.getLsbD 2
    · rw [Bool.not_false, Bool.and_true]; rfl
    · rw [Bool.not_true, Bool.and_false]; rfl
  exact ⟨read_register .status (by decide) (.inr rfl) (statusWord_eq s), write_status hclear⟩

/-- Settles O48: the codes and CHAN are `errcodeWord_eq`, and the other three are verbatim. -/
theorem resultRegistersReadBack : Obligations.ResultRegistersReadBack := fun s hp =>
  ⟨read_register .errcode (by decide) (.inl hp) (errcodeWord_eq s), read_register .errindex (by decide) (.inl hp) rfl,
    read_register .errvalue (by decide) (.inl hp) rfl, read_register .nsamples (by decide) (.inl hp) rfl⟩

/-- Settles O49: each register holds its field's number, by zero-extension where the field is a u16. -/
theorem headerRegistersReadBack : Obligations.HeaderRegistersReadBack := by
  intro s hp
  have zext (x : Half) : (x.setWidth 32).toNat = x.toNat := BitVec.toNat_setWidth_of_le (by decide)
  exact ⟨read_register_number .hdrChunkId (by decide) hp rfl,
    read_register_number .hdrChunkSize (by decide) hp rfl,
    read_register_number .hdrFormat (by decide) hp rfl,
    read_register_number .hdrFmtChunkId (by decide) hp rfl,
    read_register_number .hdrFmtChunkSize (by decide) hp rfl,
    read_register_number .hdrAudioFormat (by decide) hp (zext _),
    read_register_number .hdrNumChannels (by decide) hp (zext _),
    read_register_number .hdrSampleRate (by decide) hp rfl,
    read_register_number .hdrByteRate (by decide) hp rfl,
    read_register_number .hdrBlockAlign (by decide) hp (zext _),
    read_register_number .hdrBitsPerSample (by decide) hp (zext _),
    read_register_number .hdrDataChunkId (by decide) hp rfl,
    read_register_number .hdrDataChunkSize (by decide) hp rfl⟩

/-- Settles O50: CTRL reads exactly whether or not BUSY = 1, and bit 1 = 0 keeps its write from being a reset. -/
theorem ctrlHoldsTheMagicPolicy : Obligations.CtrlHoldsTheMagicPolicy := fun _ _ =>
  ⟨read_register .ctrl (by decide) (.inr rfl) (bitField_zero _), fun hp hv =>
    write_register_idle .ctrl (by decide) hp (if_neg (by rwa [Bool.not_eq_true]))⟩

/-- Settles O51: the write is `State.latch`. -/
theorem cmdWriteLatchesTheWord : Obligations.CmdWriteLatchesTheWord := fun _ _ hp =>
  ⟨_, write_register_idle .cmd (by decide) hp rfl, rfl, rfl⟩

end

section
/-! PROOF. What changes the document (10_state R41, R43, R47), and that every step keeps the invariant (10_state R51):
a host write stays within the buffers, a reset starts the registers anew, and a command either fails and changes the
error record only, or succeeds with what its rule checked. -/

namespace Sys2Proof.Machine

/-! ## The parts of the invariant -/

/-- No error recorded is a consistent record (10_state R30, R34). -/
theorem errorOk_none {s : State} (herr : s.err = false) (hcode : s.errCode = .none)
    (hinfo : s.errChan = false ∧ s.errIndex = 0 ∧ s.errValue = 0) : s.ErrorOk :=
  ⟨by rw [herr, hcode]; decide, by rw [hcode]; decide, fun _ => hinfo⟩

/-- Where no document is held, its registers are zero and nothing else is asked of them (10_state R51). -/
theorem documentOk_absent {s : State} (hd : s.docState = .uninit ∨ s.docState = .destroyed)
    (hhdr : s.hdr = Header.zero) (hn : s.nSamples = 0) : s.DocumentOk ∧ s.DerivedOk := by
  have hno : ¬s.hasDocument := by
    rintro (h | h | h) <;> rw [h] at hd <;> exact absurd hd (by decide)
  exact ⟨⟨fun _ => ⟨hhdr, hn⟩, fun h => absurd h hno, fun h => absurd (.inr (.inl h)) hno,
    fun h => absurd (.inr (.inr h)) hno, fun h => absurd (.inl h) hno, by rw [hn]; exact Nat.zero_le _⟩,
    fun h => absurd (.inr h) hno⟩

/-- A buffer that lists no cell is in canonical form and within every capacity (20_memory R81). -/
theorem cells_nil_ok {α : Type} (cap : Nat) : Cells.Rising ([] : Cells α) ∧ Cells.Within cap ([] : Cells α) :=
  ⟨.nil, nofun⟩

/-- The invariant asks nothing of the buffers but `State.BuffersOk`. -/
theorem inv_of_buffersOk {s : State} {byte : Memory} {left right : Elements} (h : s.Inv)
    (hbuf : State.BuffersOk { s with byte := byte, left := left, right := right }) :
    State.Inv { s with byte := byte, left := left, right := right } :=
  ⟨h.1, hbuf, h.2.2⟩

/-- A successful completion records no error, so its rule need not keep the error record (42 R179). -/
theorem inv_succeeded {s : State} (hcfg : s.cfg.WellFormed) (hbuf : s.BuffersOk) (hdoc : s.DocumentOk ∧ s.DerivedOk) :
    s.succeeded.Inv :=
  ⟨hcfg, hbuf, errorOk_none rfl rfl ⟨rfl, rfl, rfl⟩, hdoc⟩

/-- A failed completion keeps the invariant when it records the info of SAMPLE_OUT_OF_RANGE only (60 R201, R204). -/
theorem inv_failedWith {s : State} {c : ErrCode} {chan : Bool} {index value : Word} (h : s.Inv) (hnone : c ≠ .none)
    (hreserved : c ≠ .invalidSampleRate)
    (hinfo : c ≠ .sampleOutOfRange → chan = false ∧ index = 0 ∧ value = 0) :
    (s.failedWith c chan index value).Inv :=
  ⟨h.1, h.2.1, ⟨iff_of_true rfl hnone, hreserved, hinfo⟩, h.2.2.2⟩

/-! ## The resets -/

/-- The registers at reset hold no error and no document, whatever the buffers (70_reset R231). -/
theorem inv_of_registers_at_reset {s : State} (hcfg : s.cfg.WellFormed) (hbuf : s.BuffersOk)
    (herr : s.err = false ∧ s.errCode = .none ∧ s.errChan = false ∧ s.errIndex = 0 ∧ s.errValue = 0)
    (hdoc : s.docState = .uninit ∧ s.hdr = Header.zero ∧ s.nSamples = 0) : s.Inv :=
  ⟨hcfg, hbuf, errorOk_none herr.1 herr.2.1 herr.2.2, documentOk_absent (.inl hdoc.1) hdoc.2.1 hdoc.2.2⟩

/-- The soft reset keeps the buffers of an idle machine and forgets those of a busy one (70_reset R233, R234). -/
theorem inv_softReset {s : State} (h : s.Inv) : s.softReset.Inv := by
  rcases softReset_cases s with he | he <;> rw [he]
  · exact inv_of_registers_at_reset h.1 h.2.1 ⟨rfl, rfl, rfl, rfl, rfl⟩ ⟨rfl, rfl, rfl⟩
  · exact inv_of_registers_at_reset h.1 ⟨cells_nil_ok _, cells_nil_ok _, cells_nil_ok _⟩
      ⟨rfl, rfl, rfl, rfl, rfl⟩ ⟨rfl, rfl, rfl⟩

theorem inv_hardReset {s : State} (h : s.Inv) : s.hardReset.Inv :=
  inv_of_registers_at_reset h.1 ⟨cells_nil_ok _, cells_nil_ok _, cells_nil_ok _⟩
    ⟨rfl, rfl, rfl, rfl, rfl⟩ ⟨rfl, rfl, rfl⟩

/-! ## The host -/

/-- The response on the bus is no part of the invariant. -/
theorem inv_respond {s : State} (r : Reply) (h : s.Inv) : (s.respond r).Inv := h

/-- A legal host write keeps the invariant: a register write touches none of it but by a reset, and a buffer write lies
within the capacity. -/
theorem inv_writeTarget {s : State} {addr v : Word} {size : Size} {tg : Target} (h : s.Inv)
    (ht : target s.cfg addr size = some tg) : (writeTarget s size.bytes v tg).Inv := by
  have hin := target_inside ht
  obtain ⟨hbyte, hleft, hright⟩ := h.2.1
  rcases writeTarget_cases s size.bytes v tg with
    ⟨-, -, he⟩ | ⟨he, -⟩ | he | ⟨he, -⟩ | ⟨-, he | ⟨_, he⟩ | ⟨_, _, _, _, _, _, he⟩ | ⟨a, rfl, he⟩ | ⟨i, rfl, he⟩ |
      ⟨i, rfl, he⟩⟩ <;> rw [he]
  · exact inv_softReset h
  -- dropped, STATUS, read-only, CMD, CTRL and argument writes: none touches what the invariant speaks of
  iterate 6 exact h
  · exact inv_of_buffersOk h ⟨⟨wf_memWrite hbyte.1 _ _ _, within_memWrite hbyte.2 hin.1 _⟩, hleft, hright⟩
  · exact inv_of_buffersOk h ⟨hbyte, ⟨Cells.rising_put hleft.1 _ _, Cells.within_put hleft.2 hin.1 _⟩, hright⟩
  · exact inv_of_buffersOk h ⟨hbyte, hleft, Cells.rising_put hright.1 _ _, Cells.within_put hright.2 hin.1 _⟩

/-- The host's turn keeps the invariant. -/
theorem inv_hostTurn {s u : State} (h : s.Inv) (hu : hostTurn s = .next u) : u.Inv := by
  rcases hostTurn_next hu with ⟨-, rfl⟩ | ⟨t, rest, -, ht⟩ | ⟨rest, -, rfl⟩ | ⟨rest, -, rfl⟩
  · exact h
  · have hpop : State.Inv { s with inputs := rest } := h
    rcases transact_next ht with ⟨_, _, _, -, -, rfl⟩ | ⟨_, _, _, _, -, htg, rfl⟩
    · exact inv_respond _ hpop
    · exact inv_respond _ (inv_writeTarget hpop htg)
  · exact inv_respond _ (s := { s with inputs := _ }) h
  · exact inv_hardReset (s := { s with inputs := rest }) h

/-! ## The commands -/

/-- The frame of 10_state R51 is that of 41 R145 for samples of whole bytes. -/
theorem frame_eq_bytesPerFrame {nc bps : Nat} (hbps : bps = 8 ∨ bps = 16) : nc * bps / 8 = bytesPerFrame nc bps :=
  Nat.mul_div_assoc nc (by rcases hbps with rfl | rfl <;> decide)

/-- NumSamples is the payload divided by the frame (42 R173, 10_state R51). -/
theorem numSamples_eq {h : Header} (hbps : h.bitsPerSample = 8 ∨ h.bitsPerSample = 16) :
    numSamples h = h.dataChunkSize.toNat / (h.numChannels.toNat * h.bitsPerSample.toNat / 8) := by
  rw [frame_eq_bytesPerFrame (bitsPerSample_toNat hbps)]
  rcases hbps with hb | hb
  · rw [numSamples, if_pos hb, hb, bytesPerFrame, show bytesPerSample (8 : Half).toNat = 1 from rfl, Nat.mul_one]
  · rw [numSamples, if_neg (by rw [hb]; decide), hb, bytesPerFrame, show bytesPerSample (16 : Half).toNat = 2 from rfl,
      Nat.div_div_eq_div_mul, Nat.mul_comm]

/-- LOAD's checks are the invariant of a LOADED document (42 R172, R173): the payload fits BYTE, so its frames fit the
channel buffers (00_scope R7). -/
theorem inv_load_succeeded {s u : State} (h : s.Inv) (hu : ruleOf .load s = .ok u) : u.succeeded.Inv := by
  obtain ⟨hcfg, hbuf, -⟩ := h
  obtain ⟨hframes, hmax⟩ := hcfg.2
  obtain ⟨rfl, -, hcap, -, hlen, hbps, hnc⟩ := ruleOf_load_ok hu
  have hsize : (headerFields s).dataChunkSize.toNat ≤ s.cfg.bufBytes - 44 :=
    Nat.le_sub_of_add_le' (hlen ▸ hcap)
  have hfit : numSamples (headerFields s) ≤ s.cfg.maxFrames := by
    rw [numSamples_eq hbps]
    exact (Nat.div_le_self _ _).trans (hsize.trans hframes)
  have hn : (BitVec.ofNat 32 (numSamples (headerFields s))).toNat = numSamples (headerFields s) :=
    Nat.mod_eq_of_lt (hfit.trans_lt (hmax.trans_lt (by decide)))
  exact inv_succeeded hcfg hbuf ⟨⟨(by rintro (h | h) <;> cases h), fun _ => ⟨hbps, hnc⟩, nofun, nofun,
    fun _ => ⟨hsize, hn.trans (numSamples_eq hbps)⟩, hn.trans_le hfit⟩, (by rintro (h | h) <;> cases h)⟩

/-- The frame of CREATE's operands fits `block_align` (40 R130, R133). -/
theorem createHeader_blockAlign {nc bps : Half} (sr : Word) (hbps : bps = 8 ∨ bps = 16) (hnc : nc = 1 ∨ nc = 2) :
    (createHeader nc sr bps).blockAlign.toNat = nc.toNat * bps.toNat / 8 := by
  rcases hbps with rfl | rfl <;> rcases hnc with rfl | rfl <;> rfl

/-- CREATE writes the derived fields of its operands and an empty document (42 R174, 40 R133). -/
theorem inv_create_succeeded {s u : State} (h : s.Inv) (hu : ruleOf .create s = .ok u) : u.succeeded.Inv := by
  obtain ⟨hcfg, hbuf, -⟩ := h
  obtain ⟨rfl, hbps, hnc⟩ := ruleOf_create_ok hu
  exact inv_succeeded hcfg hbuf ⟨⟨(by rintro (h | h) <;> cases h), fun _ => ⟨hbps, hnc⟩, fun _ => ⟨rfl, rfl, rfl⟩,
    nofun, nofun, Nat.zero_le _⟩, fun _ => ⟨⟨rfl, rfl, rfl, rfl, rfl, rfl⟩, createHeader_blockAlign _ hbps hnc,
    BitVec.toNat_ofNat _ _⟩⟩

/-- SET_DATA's checks are the invariant of a POPULATED document (42 R175, 41 R148), and it keeps every field CREATE
wrote but the two sizes. -/
theorem inv_setData_succeeded {s u : State} (h : s.Inv) (hd : s.docState = .created ∨ s.docState = .populated)
    (hu : ruleOf .setData s = .ok u) : u.succeeded.Inv := by
  obtain ⟨hcfg, ⟨hbyte, hchannels⟩, -, hdoc, hderived⟩ := h
  obtain ⟨hlo, hhi⟩ := hcfg.1
  obtain ⟨rfl, -, -, hframes, hcap, -⟩ := ruleOf_setData_ok hu
  obtain ⟨h8, hn⟩ := inv_geometry hdoc (.inr hd)
  have hsmall : s.leftLen.toNat * bytesPerFrame s.hdr.numChannels.toNat s.hdr.bitsPerSample.toNat ≤ 2 ^ 28 :=
    hcap.trans (Nat.sub_le_of_le_add hhi)
  have hpayload : (populatedState s).hdr.dataChunkSize.toNat =
      s.leftLen.toNat * bytesPerFrame s.hdr.numChannels.toNat s.hdr.bitsPerSample.toNat :=
    Nat.mod_eq_of_lt (hsmall.trans_lt (by decide))
  have hchunk : (populatedState s).hdr.chunkSize.toNat = 36 + (populatedState s).hdr.dataChunkSize.toNat :=
    hpayload ▸ Nat.mod_eq_of_lt ((Nat.add_le_add_left hsmall 36).trans_lt (by decide))
  have hframe : (populatedState s).frameBytes =
      bytesPerFrame s.hdr.numChannels.toNat s.hdr.bitsPerSample.toNat := frame_eq_bytesPerFrame h8
  have himage : Cells.Within s.cfg.bufBytes (populatedState s).byte :=
    within_packWrite s (within_hdrEncode _ hbyte.2 hlo) h8 hn
      (by rw [Nat.mul_assoc]; exact Nat.add_le_of_le_sub' hlo hcap)
  exact inv_succeeded hcfg ⟨⟨wf_packWrite _ _ _ _ (wf_hdrEncode _ hbyte.1), himage⟩, hchannels⟩
    ⟨⟨(by rintro (h | h) <;> cases h), fun _ => hdoc.2.1 (.inr hd), nofun,
      fun _ => ⟨by rw [hpayload, hframe]; rfl, hpayload.trans_le hcap, hchunk⟩, nofun, hframes⟩, fun _ => hderived hd⟩

/-- GET_DATA unpacks NSAMPLES elements into each channel buffer, which hold that many (42 R176, 10_state R51). -/
theorem inv_getData_succeeded {s u : State} (h : s.Inv) (hu : ruleOf .getData s = .ok u) : u.succeeded.Inv := by
  obtain ⟨hcfg, ⟨hbyte, hleft, hright⟩, -, hdoc, hderived⟩ := h
  obtain rfl := Except.ok.inj hu
  have ⟨_, _, _, _, _, hn⟩ := hdoc
  refine inv_succeeded hcfg ⟨hbyte, ⟨wf_unpackInto _ _ _ _ _ hleft.1, within_unpackInto _ _ _ _ hleft.2 hn⟩, ?_⟩
    ⟨hdoc, hderived⟩
  dsimp only
  split
  · exact ⟨wf_unpackInto _ _ _ _ _ hright.1, within_unpackInto _ _ _ _ hright.2 hn⟩
  · exact hright

/-- DESTROY leaves no document and no byte (42 R177). -/
theorem inv_destroy_succeeded {s u : State} (h : s.Inv) (hu : ruleOf .destroy s = .ok u) : u.succeeded.Inv := by
  obtain ⟨hcfg, ⟨-, hchannels⟩, -⟩ := h
  obtain rfl := Except.ok.inj hu
  exact inv_succeeded hcfg ⟨cells_nil_ok _, hchannels⟩ (documentOk_absent (.inr rfl) rfl rfl)

/-- Every command keeps the invariant, in success and in error. -/
theorem inv_exec {i : Instr} {s t : State} (h : s.Inv) (ht : exec i s = .next t) : t.Inv := by
  rcases exec_cases i s with ⟨ha, u, hu, he⟩ | ⟨-, c, hc, -, he⟩ | ⟨-, -, info, -, he⟩ | ⟨-, he⟩ <;>
    obtain rfl := Host.Outcome.next.inj (ht.symm.trans he)
  · cases i with
    | load => exact inv_load_succeeded h hu
    | create => exact inv_create_succeeded h hu
    | setData => exact inv_setData_succeeded h (by simpa [allowedIn] using ha) hu
    | getData => exact inv_getData_succeeded h hu
    | destroy => exact inv_destroy_succeeded h hu
  · obtain ⟨hnone, -, hreserved, -⟩ := ownCodes_ne hc
    exact inv_failedWith h hnone hreserved fun _ => ⟨rfl, rfl, rfl⟩
  · exact inv_failedWith h nofun nofun fun hne => absurd rfl hne
  · exact inv_failedWith h nofun nofun fun _ => ⟨rfl, rfl, rfl⟩

/-- A command that changes the header registers, NSAMPLES or DOC_STATE is no GET_DATA, and it completed with NONE. -/
theorem exec_document {i : Instr} {s t : State} (h : exec i s = .next t) :
    (t.hdr = s.hdr ∧ t.nSamples = s.nSamples ∧ t.docState = s.docState) ∨
    ((i = .load ∨ i = .create ∨ i = .setData ∨ i = .destroy) ∧ t.errCode = .none) := by
  by_cases hc : t.errCode = .none
  · cases i with
    | load => exact .inr ⟨.inl rfl, hc⟩
    | create => exact .inr ⟨.inr (.inl rfl), hc⟩
    | setData => exact .inr ⟨.inr (.inr (.inl rfl)), hc⟩
    | getData =>
      obtain ⟨-, u, hu, rfl⟩ := exec_success h hc
      obtain rfl := Except.ok.inj hu
      exact .inl ⟨rfl, rfl, rfl⟩
    | destroy => exact .inr ⟨.inr (.inr (.inr rfl)), hc⟩
  · rw [exec_failure h hc]
    exact .inl ⟨rfl, rfl, rfl⟩

end Sys2Proof.Machine

open Sys2Proof Sys2Proof.Machine

/-- Settles O57: reset registers over buffers that list no cell. -/
theorem invariantAtReset : Obligations.InvariantAtReset :=
  inv_of_registers_at_reset (by decide) ⟨cells_nil_ok _, cells_nil_ok _, cells_nil_ok _⟩
    ⟨rfl, rfl, rfl, rfl, rfl⟩ ⟨rfl, rfl, rfl⟩

/-- Settles O58, by the cases of a step: the host's turn, before or while a command waits, the completion of an illegal
word, and a command. -/
theorem invariantKeptByEveryStep : Obligations.InvariantKeptByEveryStep := by
  intro s t h hstep
  rcases step_next hstep with ⟨-, hu⟩ | ⟨w, -, -, hu⟩ | ⟨w, e, -, -, -, rfl⟩ | ⟨w, i, -, -, -, hu⟩
  · exact inv_hostTurn h hu
  · exact inv_hostTurn (s := s.waited) h hu
  · exact inv_failedWith (c := .illegalCommand) h nofun nofun fun _ => ⟨rfl, rfl, rfl⟩
  · exact inv_exec h hu

/-- Settles O59: `hostTurn_document` for the host's turns and `exec_document` for the commands; the completion of an
illegal word writes no document. -/
theorem onlyCommandsAndResetsChangeTheDocument : Obligations.OnlyCommandsAndResetsChangeTheDocument := by
  intro s t hstep
  rcases step_next hstep with ⟨hp, hu⟩ | ⟨w, -, hw, hu⟩ | ⟨w, e, -, -, -, rfl⟩ | ⟨w, i, hp, hw, hd, hu⟩
  · exact (hostTurn_document hu).imp_right fun ⟨a, rest, hr⟩ => .inr ⟨a, rest, .inl hp, hr⟩
  · exact (hostTurn_document hu).imp_right fun ⟨a, rest, hr⟩ => .inr ⟨a, rest, .inr hw, hr⟩
  · exact .inl ⟨rfl, rfl, rfl⟩
  · exact (exec_document hu).imp_right fun ⟨hi, hc⟩ => .inl ⟨w, i, hp, hw, hd, hi, hu, hc⟩

end

section
/-! PROOF. The host's bus as a memory (20_memory): what a legal transaction reaches and does while BUSY = 0, what is
dropped while BUSY = 1, and that nothing a command can read changes while it waits. -/

namespace Sys2Proof.Machine

/-! ## Legal transactions -/

/-- A legal read answers the data of its target (20_memory R68). -/
theorem transact_read_legal {s : State} {addr : Word} {size : Size} {tg : Target}
    (ht : target s.cfg addr size = some tg) :
    transact (.read addr size) s = .next (s.respond (.data (readTarget s size.bytes tg))) := by
  simp only [transact, ht]

/-- A legal write performs the write of its target (20_memory R68). -/
theorem transact_write_legal {s : State} {addr v : Word} {size : Size} {tg : Target}
    (ht : target s.cfg addr size = some tg) :
    transact (.write addr size v) s = .next ((writeTarget s size.bytes v tg).respond .done) := by
  simp only [transact, ht]

/-- A write that reaches nothing is BUS_ERROR (60_exceptions R206). -/
theorem transact_write_illegal {s : State} {addr v : Word} {size : Size} (ht : target s.cfg addr size = none) :
    transact (.write addr size v) s = .fault (.busError (.write addr size v)) := by
  simp only [transact, ht]

theorem transact_read_idle {s : State} {addr : Word} {size : Size} {tg : Target} (hp : s.pend = none)
    (ht : target s.cfg addr size = some tg) :
    transact (.read addr size) s = .next (s.respond (.data (readIdle s size.bytes tg))) := by
  rw [transact_read_legal ht, readTarget_idle hp]

theorem transact_write_idle {s : State} {addr v : Word} {size : Size} {tg : Target} (hp : s.pend = none)
    (ht : target s.cfg addr size = some tg) :
    transact (.write addr size v) s = .next ((writeIdle s size.bytes v tg).respond .done) := by
  rw [transact_write_legal ht, writeTarget_idle hp]

/-! ## The windows of the buffers -/

/-- An aligned access within BYTE is legal (20_memory R64). -/
theorem target_byte {cfg : Config} {addr : Word} {size : Size} {a : Nat} (hcfg : cfg.WellFormed)
    (ha : addr.toNat = 0x40000000 + a) (hal : a % size.bytes = 0) (hin : a + size.bytes ≤ cfg.bufBytes) :
    target cfg addr size = some (.byte a) := by
  obtain ⟨⟨-, hbuf⟩, -⟩ := hcfg
  have hw : addr.toNat / 2 ^ 30 = 1 := by omega
  have ho : addr.toNat % 2 ^ 30 = a := by omega
  simp only [target, hw, ho]
  simp [hal, hin]

/-- The word of element `i` of LEFT (window 2) or RIGHT (window 3) is legal (20_memory R66). -/
theorem target_channel {cfg : Config} {addr : Word} {i : Nat} (window : Nat) (hcfg : cfg.WellFormed)
    (hi : i < cfg.maxFrames) (hwindow : 1 < window) (ha : addr.toNat = 2 ^ 30 * window + 4 * i) :
    target cfg addr .b4 = some (if window = 2 then .left i else .right i) := by
  obtain ⟨-, -, hmax⟩ := hcfg
  have hw : addr.toNat / 2 ^ 30 = window := by omega
  have ho : addr.toNat % 2 ^ 30 = 4 * i := by omega
  simp only [target, hw, ho, Size.bytes]
  rw [if_neg (by omega), if_neg (by omega), if_pos ⟨trivial, by omega, by omega⟩, Nat.mul_div_cancel_left i (by decide)]

/-- Byte `k` of a word, as MemWrite cuts it (00_scope R11). -/
theorem ofNat_div_pow_eq_extractLsb' (v : Word) (k : Nat) :
    BitVec.ofNat 8 (v.toNat / 256 ^ k) = v.extractLsb' (8 * k) 8 := by
  rw [BitVec.extractLsb', Nat.shiftRight_eq_div_pow, Nat.pow_mul]

/-! ## Offsets whose writes are ignored -/

/-- A register whose access is RO (10_state R22): no bit of it takes a host write. -/
def Reg.readOnly : Reg → Bool
  | .ctrl | .status | .cmd | .arg0 | .arg1 | .bytelen | .leftlen | .rightlen | .chctl => false
  | _ => true

/-- A write to a read-only register is ignored (10_state R23). -/
theorem writeReg_readOnly {r : Reg} (s : State) (v : Word) (h : r.readOnly = true) : writeReg s v r = s := by
  cases r with
  | ctrl | status | cmd | arg0 | arg1 | bytelen | leftlen | rightlen | chctl => exact absurd h Bool.false_ne_true
  | _ => rfl

/-- Where the registers lie: none at a reserved offset, and the writable ones in 0x008 to 0x010 and 0x020 to 0x034
(10_state R22). -/
theorem offset_of_register {off : Nat} {r : Reg} (h : Reg.at? off = some r) :
    (off ≠ 0x03C ∧ off < 0x074) ∧
      (off < 0x008 ∨ (0x014 ≤ off ∧ off < 0x020) ∨ 0x038 ≤ off → r.readOnly = true) := by
  unfold Reg.at? at h
  split at h <;> cases h <;> decide

/-- A read of a reserved offset returns 0 while BUSY = 0 (20_memory R63). -/
theorem readIdle_reserved {off : Nat} (s : State) (n : Nat) (h : off = 0x03C ∨ 0x074 ≤ off) :
    readIdle s n (.reg off) = 0 := by
  have hnone : Reg.at? off = none := Option.eq_none_iff_forall_ne_some.mpr fun r hr => by
    have := (offset_of_register hr).1
    omega
  rw [readIdle, hnone]

/-- A write to a read-only register or a reserved offset is ignored while BUSY = 0 (20_memory R63). -/
theorem writeIdle_ignored {off : Nat} (s : State) (n : Nat) (v : Word)
    (h : off < 0x008 ∨ (0x014 ≤ off ∧ off < 0x020) ∨ 0x038 ≤ off) : writeIdle s n v (.reg off) = s := by
  rw [writeIdle]
  cases hr : Reg.at? off with
  | none => rfl
  | some r => exact writeReg_readOnly s v ((offset_of_register hr).2 h)

/-! ## Writes while BUSY = 1 -/

theorem writeTarget_busy {s : State} {w : Word} (h : s.pend = some w) (n : Nat) (v : Word) (tg : Target) :
    writeTarget s n v tg = writeBusy s v tg := by
  simp [writeTarget, h]

/-- A write other than to STATUS, or to CTRL with bit 1 set, is dropped (20_memory R79). -/
theorem writeBusy_dropped {s : State} {v : Word} {tg : Target} (hstatus : tg ≠ .reg 0x00C)
    (hctrl : tg ≠ .reg 0x008 ∨ v.getLsbD 1 = false) : writeBusy s v tg = s.setOverrun := by
  rw [writeBusy, if_neg hstatus, if_neg (by simpa [imp_iff_not_or] using hctrl)]

/-- A CTRL write with bit 1 set aborts the command, so the buffers are forgotten (20_memory R79, 70_reset R234). -/
theorem writeBusy_reset {s : State} {w v : Word} (h : s.pend = some w) (hv : v.getLsbD 1 = true) :
    writeBusy s v (.reg 0x008) = s.resetRegisters.forgetBuffers := by
  rw [writeBusy, if_neg (by decide), if_pos ⟨rfl, hv⟩, softReset_busy s h]

/-- Everything a write can do while BUSY = 1: touch OVERRUN alone, or be the soft reset, which then aborts a command
(20_memory R79, 70_reset R234). -/
theorem writeTarget_busy_cases {s : State} {w : Word} (h : s.pend = some w) (n : Nat) (v : Word) (tg : Target) :
    (∃ b, writeTarget s n v tg = { s with overrun := b }) ∨
      writeTarget s n v tg = s.resetRegisters.forgetBuffers := by
  rw [writeTarget_busy h, writeBusy]
  split
  · exact .inl ⟨_, rfl⟩
  · split
    · exact .inr (softReset_busy s h)
    · exact .inl ⟨_, rfl⟩

/-- Only the transaction at an offset's own address reaches it in the REG aperture (20_memory R61). -/
theorem toNat_of_target_reg {cfg : Config} {addr : Word} {size : Size} {off : Nat}
    (h : target cfg addr size = some (.reg off)) : addr.toNat = off := by
  simp only [target] at h
  repeat' split at h
  all_goals cases h
  omega

end Sys2Proof.Machine

open Sys2Proof Sys2Proof.Machine

/-- Settles O8, by what the host's turn can be while a command waits: nothing, a read, a write
(`writeTarget_busy_cases`), POLL, or the hardware reset. -/
theorem latchedCommandInputsAreStable : Obligations.LatchedCommandInputsAreStable := by
  intro s t w hp hw hstep
  have hturn : hostTurn s.waited = .next t := by simpa only [step, hp, if_neg hw] using hstep
  rcases hostTurn_next hturn with ⟨-, rfl⟩ | ⟨x, rest, -, hx⟩ | ⟨rest, -, rfl⟩ | ⟨rest, -, rfl⟩
  · exact .inl rfl
  · rcases transact_next hx with ⟨_, _, _, -, -, rfl⟩ | ⟨_, size, v, tg, -, -, rfl⟩
    · exact .inl rfl
    · rcases writeTarget_busy_cases (s := { s.waited with inputs := rest }) hp size.bytes v tg with ⟨b, he⟩ | he <;>
        rw [he]
      · exact .inl rfl
      · exact .inr rfl
  · exact .inl rfl
  · exact .inr rfl

/-- Settles O42: the target is `byte a`, and the write is read back with `find_memWrite`. -/
theorem byteApertureIsLittleEndianMemory : Obligations.ByteApertureIsLittleEndianMemory := by
  intro s addr size v a hcfg hp ha hal hin
  have ht := target_byte hcfg ha hal hin
  refine ⟨transact_read_idle hp ht, _, transact_write_idle hp ht, rfl, fun k hk => byteAt_of_find ?_,
    fun b hb => find_memWrite_outside s.byte v.toNat hb⟩
  calc Cells.find (memWrite s.byte a size.bytes v.toNat) (a + k)
      = some (BitVec.ofNat 8 (v.toNat / 256 ^ k)) := by
        rw [find_memWrite, if_pos (by omega), Nat.add_sub_cancel_left]
    _ = some (v.extractLsb' (8 * k) 8) := by rw [ofNat_div_pow_eq_extractLsb']

/-- Settles O43: an element written reads back as the cell just put, and no other cell has changed. -/
theorem channelAperturesStoreVerbatim : Obligations.ChannelAperturesStoreVerbatim := by
  intro s addr v i hcfg hp hi
  refine ⟨fun ha => ?_, fun ha => ?_⟩
  · have ht : target s.cfg addr .b4 = some (.left i) := target_channel 2 hcfg hi (by decide) ha
    exact ⟨_, _, transact_write_idle hp ht, rfl, fun j hj => Cells.find_put_ne s.left v hj, transact_read_idle hp ht,
      congrArg Reply.data (leftAt_of_find (Cells.find_put_self s.left i v))⟩
  · have ht : target s.cfg addr .b4 = some (.right i) := target_channel 3 hcfg hi (by decide) ha
    exact ⟨_, _, transact_write_idle hp ht, rfl, fun j hj => Cells.find_put_ne s.right v hj, transact_read_idle hp ht,
      congrArg Reply.data (rightAt_of_find (Cells.find_put_self s.right i v))⟩

/-- Settles O45: `writeIdle_ignored` for the writes; CMD reads 0 as a register, the reserved offsets for want of one. -/
theorem reservedAndReadOnlyOffsetsIgnoreWrites : Obligations.ReservedAndReadOnlyOffsetsIgnoreWrites := by
  intro s addr v hp hal
  refine ⟨fun h => ?_, ?_⟩
  · rw [transact_write_idle hp (target_reg s.cfg (by omega) hal), writeIdle_ignored s _ v (by omega)]
    rfl
  · rintro (hcmd | hres)
    · exact read_register .cmd ⟨by omega, hal, by rw [hcmd]; rfl⟩ (.inl hp) rfl
    · rw [transact_read_idle hp (target_reg s.cfg (by omega) hal), readIdle_reserved s _ (by omega)]
      rfl

/-- Settles O52: `writeBusy_dropped` at every other target, the two exceptions as `writeBusy` performs them, and an
illegal write for want of a target. -/
theorem busyWritesAreDropped : Obligations.BusyWritesAreDropped := by
  intro s addr size v w hp
  refine ⟨fun hlegal hstatus hctrl => ?_, write_status rfl, fun hv => ?_, fun hillegal => ?_⟩
  · obtain ⟨tg, ht⟩ := Option.isSome_iff_exists.mp hlegal
    have apart {reg : Word} (hne : addr ≠ reg) : tg ≠ .reg reg.toNat := by
      rintro rfl
      exact hne (BitVec.eq_of_toNat_eq (toNat_of_target_reg ht))
    rw [transact_write_legal ht, writeTarget_busy hp, writeBusy_dropped (apart hstatus) (hctrl.imp_left apart)]
    rfl
  · have ht : target s.cfg 0x00000008 .b4 = some (.reg 0x008) := target_reg s.cfg (by decide) (by decide)
    rw [transact_write_legal ht, writeTarget_busy hp, writeBusy_reset hp hv]
    rfl
  · exact transact_write_illegal (Option.isNone_iff_eq_none.mp (Option.isSome_eq_false_iff.mp hillegal))

/-- Settles O41: a read that completes is `State.respond` of the state it found. -/
theorem readsHaveNoSideEffects : Obligations.ReadsHaveNoSideEffects := by
  intro s t addr size h
  obtain ⟨_, _, _, -, -, rfl⟩ | ⟨_, _, _, _, ⟨⟩, -⟩ := transact_next h
  rfl

end

section
/-! PROOF. The decoder (30_encoding R90 to R102): what it answers for each opcode, that it inverts the encoder, and how
the engine completes a word it refuses. And the pseudo-instruction POLL, which waits for BUSY = 0 (R104). -/

namespace Sys2Proof.Machine

/-- Every command is what its word decodes to (30_encoding R91). -/
theorem decode_encode (i : Instr) : decode (encode i) = .ok i := by
  have word : Laws.EncodedWord.Statement i := by
    cases i with
    | load => exact Laws.EncodedWord.load
    | create => exact Laws.EncodedWord.create
    | setData => exact Laws.EncodedWord.setData
    | getData => exact Laws.EncodedWord.getData
    | destroy => exact Laws.EncodedWord.destroy
  obtain ⟨-, -, -, -, -, hdec⟩ := word
  exact hdec

/-- The two fields make up the word, so only a command's own word has its opcode and no reserved bit set
(30_encoding R90, R91). -/
theorem eq_encode_of_fields {w : Word} {i : Instr} (hr : rsvdField w = 0) (ho : opcField w = opcodeOf i) :
    w = encode i := by
  have hw : rsvdField w ++ opcField w = w :=
    (BitVec.extractLsb'_append_extractLsb'_eq_extractLsb' (start₁ := 0) (len₁ := 8) rfl).trans
      BitVec.extractLsb'_eq_self
  calc w = rsvdField w ++ opcField w := hw.symm
    _ = encode i := by rw [hr, ho]; rfl

/-- The opcode of a command, with no reserved bit set, decodes to it (30_encoding R91). -/
theorem decode_opcode {w : Word} {i : Instr} (hr : rsvdField w = 0) (ho : opcField w = opcodeOf i) :
    decode w = .ok i := by
  rw [eq_encode_of_fields hr ho, decode_encode]

/-- A word with a reserved bit set is refused as such (30_encoding R92). -/
theorem decode_reserved {w : Word} (h : rsvdField w ≠ 0) : decode w = .error .reservedBits := if_neg h

/-- OPC 0 and OPC 6 upwards are assigned to no command (30_encoding R93). -/
theorem decode_unassigned {w : Word} (hr : rsvdField w = 0) (ho : opcField w = 0 ∨ 6 ≤ (opcField w).toNat) :
    decode w = .error .unassignedOpcode := by
  refine (if_pos hr).trans ?_
  rcases ho with h0 | h6
  · rw [h0]; rfl
  · obtain ⟨n, hn⟩ := Nat.exists_eq_add_of_le' h6
    rw [hn]; rfl

/-- The opcode map and the unassigned opcodes make up all 256 values of OPC (30_encoding R91, R93). -/
theorem opcode_assigned_or_unassigned (b : Byte) : (∃ i, b = opcodeOf i) ∨ b = 0 ∨ 6 ≤ b.toNat := by
  rcases hn : b.toNat with _ | _ | _ | _ | _ | _ | n
  · exact .inr (.inl (BitVec.eq_of_toNat_eq hn))
  · exact .inl ⟨.load, BitVec.eq_of_toNat_eq hn⟩
  · exact .inl ⟨.create, BitVec.eq_of_toNat_eq hn⟩
  · exact .inl ⟨.setData, BitVec.eq_of_toNat_eq hn⟩
  · exact .inl ⟨.getData, BitVec.eq_of_toNat_eq hn⟩
  · exact .inl ⟨.destroy, BitVec.eq_of_toNat_eq hn⟩
  · exact .inr (.inr (Nat.le_add_left 6 n))

/-- Only a command's own word decodes to it (30_encoding R91, R102). -/
theorem eq_encode_of_decode {w : Word} {i : Instr} (h : decode w = .ok i) : w = encode i := by
  have hr : rsvdField w = 0 := by
    by_contra hr
    cases (decode_reserved hr).symm.trans h
  rcases opcode_assigned_or_unassigned (opcField w) with ⟨j, ho⟩ | ho
  · cases (decode_opcode hr ho).symm.trans h
    exact eq_encode_of_fields hr ho
  · cases (decode_unassigned hr ho).symm.trans h

/-- The engine's step on a word that encodes no command, in the words of the statements (30_encoding R92, R93). -/
theorem step_illegal {s : State} {w : Word} {e : Illegal} (hp : s.pend = some w) (hw : s.wait = 0)
    (hd : decode w = .error e) : step s = .next (s.failedWith .illegalCommand false 0 0) := by
  simp only [step, hp, if_pos hw, engineStep, hd]
  exact congrArg _ (complete_absent (c := .illegalCommand) (by decide) s)

/-- Bit 0 of STATUS is BUSY (10_state R29). -/
theorem statusWord_getLsbD_zero (s : State) : s.statusWord.getLsbD 0 = s.busy := by
  rw [State.statusWord]
  generalize s.busy = b, s.err = e, s.overrun = o, s.docState = d
  cases d <;> revert b e o <;> decide

end Sys2Proof.Machine

open Sys2Proof Sys2Proof.Machine

/-- Settles O3: `decode_encode` and `eq_encode_of_decode`. -/
theorem decodeEncodeRoundTrip : Obligations.DecodeEncodeRoundTrip :=
  ⟨fun i _ => decode_encode i, fun _ _ => eq_encode_of_decode⟩

/-- Settles O4: such a word is refused by the decoder, and `step_illegal` is the completion. -/
theorem illegalWordsCompleteIllegalCommand : Obligations.IllegalWordsCompleteIllegalCommand := by
  rintro s w hp hw (hr | ⟨hr, ho⟩)
  · exact step_illegal hp hw (decode_reserved hr)
  · exact step_illegal hp hw (decode_unassigned hr ho)

/-- Settles O1: the first five words are the encoded commands, the next two are refused by their fields, and the table's
word is computed. -/
theorem opcodeTableWordsDecode : Obligations.OpcodeTableWordsDecode :=
  ⟨decode_encode .load, decode_encode .create, decode_encode .setData, decode_encode .getData, decode_encode .destroy,
    decode_reserved (by decide), decode_unassigned (by decide) (by decide), by decide⟩

/-- Settles O2: the clause of each opcode is `decode_opcode` at its command. -/
theorem decodeIsTheOpcodeMap : Obligations.DecodeIsTheOpcodeMap := fun _ =>
  ⟨decode_reserved, fun hr =>
    ⟨decode_opcode (i := .load) hr, decode_opcode (i := .create) hr, decode_opcode (i := .setData) hr,
      decode_opcode (i := .getData) hr, decode_opcode (i := .destroy) hr, decode_unassigned hr⟩⟩

/-- Settles O56: BUSY decides whether POLL comes again, and it is the bit POLL returns. -/
theorem pollRepeatsWhileBusy : Obligations.PollRepeatsWhileBusy := by
  intro s
  have hpoll : hostAction .poll s = .next (State.respond (.data s.statusWord)
      { s with inputs := if s.busy then .poll :: s.inputs else s.inputs }) := rfl
  rw [hpoll, statusWord_getLsbD_zero]
  refine ⟨fun hp => ?_, fun w hp => ?_⟩
  · rw [(not_busy_iff s).mpr hp]
    exact ⟨rfl, rfl⟩
  · rw [(busy_iff s).mpr ⟨w, hp⟩]
    exact ⟨rfl, rfl⟩

end

section
/-! PROOF. The frame of the commands (30_encoding R94, column "writes"; 42 R172 to R177): each success is the state its
rule writes, completed, so what remains to say is which cells of a buffer the rule leaves alone. -/

namespace Sys2Proof.Machine

/-- SET_DATA runs only on a document it can write (42_document_commands R171). -/
theorem hasDocument_of_setData_allowed {s : State} (h : allowedIn .setData s.docState = true) : s.hasDocument :=
  .inr (by simpa [allowedIn] using h)

/-- A document within BYTE has at most 2^28 bytes of payload (00_scope R6), so BYTELEN is exact after SET_DATA (42 R175,
40_header_codec R131). -/
theorem populated_byteLen {s : State} (hcfg : s.cfg.WellFormed)
    (hcap : s.leftLen.toNat * bytesPerFrame s.hdr.numChannels.toNat s.hdr.bitsPerSample.toNat ≤ s.cfg.bufBytes - 44) :
    (populatedState s).byteLen.toNat =
      44 + s.leftLen.toNat * bytesPerFrame s.hdr.numChannels.toNat s.hdr.bitsPerSample.toNat := by
  obtain ⟨⟨-, hbuf⟩, -⟩ := hcfg
  exact Nat.mod_eq_of_lt
    ((Nat.add_le_add_left (hcap.trans (Nat.sub_le_of_le_add hbuf)) 44).trans_lt (by decide))

/-- GET_DATA leaves the elements from N on alone (42 R176). -/
theorem find_unpackInto_beyond (s : State) {n : Nat} (nc bps c : Nat) (buf : Elements) {j : Nat} (hj : n ≤ j) :
    Cells.find (unpackInto s n nc bps c buf) j = Cells.find buf j := by
  rw [find_unpackInto, if_neg (Nat.not_lt.mpr hj)]

end Sys2Proof.Machine

open Sys2Proof Sys2Proof.Machine

/-- Settles O15: a command that succeeds has run its rule to the end, and the cells SET_DATA and GET_DATA leave alone
are those of `populated_find_beyond` and `find_unpackInto_beyond`. -/
theorem commandsWriteOnlyTheirState : Obligations.CommandsWriteOnlyTheirState := by
  rintro s t ⟨hcfg, -, -, hdoc, -⟩ hc
  refine ⟨fun h => ?load, fun h => ?create, fun h => ?setData, fun h => ?getData, fun h => ?destroy⟩ <;>
    obtain ⟨ha, u, hu, rfl⟩ := exec_success h hc
  case load =>
    obtain ⟨rfl, -⟩ := ruleOf_load_ok hu
    rfl
  case create =>
    obtain ⟨rfl, -⟩ := ruleOf_create_ok hu
    rfl
  case setData =>
    obtain ⟨rfl, -, -, -, hcap, -⟩ := ruleOf_setData_ok hu
    exact ⟨rfl, fun b hb => populated_find_beyond hdoc (hasDocument_of_setData_allowed ha)
      ((populated_byteLen hcfg hcap).symm.trans_le hb)⟩
  case getData =>
    obtain rfl := Except.ok.inj hu
    refine ⟨rfl, fun j hj => ⟨find_unpackInto_beyond _ _ _ _ _ hj, ?_⟩, fun hmono => if_neg (by rw [hmono]; decide)⟩
    dsimp only [State.succeeded]
    split
    · exact find_unpackInto_beyond _ _ _ _ _ hj
    · rfl
  case destroy =>
    obtain rfl := Except.ok.inj hu
    rfl

end

section
/-! PROOF. What the commands read (30_encoding R94, column "reads"): from two states that agree on it, a command's rule
raises the same error or writes the same values, so the two completions cannot be told apart. -/

namespace Sys2Proof.Machine

/-- Two answers of a rule agree: the same error, or two successes whose completions `R` relates. -/
def AnswersAgree (R : State → State → Prop) (x x' : Except CmdError State) : Prop :=
  (∃ e, x = .error e ∧ x' = .error e) ∨
  (∃ u u', x = .ok u ∧ x' = .ok u' ∧ u.docState = u'.docState ∧ R u.succeeded u'.succeeded)

theorem AnswersAgree.error {R : State → State → Prop} (e : CmdError) : AnswersAgree R (.error e) (.error e) :=
  .inl ⟨e, rfl, rfl⟩

theorem AnswersAgree.ok {R : State → State → Prop} {u u' : State} (hdoc : u.docState = u'.docState)
    (hwrites : R u.succeeded u'.succeeded) : AnswersAgree R (.ok u) (.ok u') :=
  .inr ⟨u, u', rfl, rfl, hdoc, hwrites⟩

/-- A check that both rules make. -/
theorem AnswersAgree.ite {R : State → State → Prop} {c : Prop} [Decidable c] {x x' y y' : Except CmdError State}
    (hthen : AnswersAgree R x x') (helse : AnswersAgree R y y') :
    AnswersAgree R (if c then x else y) (if c then x' else y') := by
  by_cases h : c
  · rwa [if_pos h, if_pos h]
  · rwa [if_neg h, if_neg h]

/-- A command's rule decides its completion: where the rules agree, so do the results, and the writes of a success. -/
theorem exec_agree {R : State → State → Prop} {i : Instr} {s s' t t' : State} (hdoc : s.docState = s'.docState)
    (ht : exec i s = .next t) (ht' : exec i s' = .next t')
    (hrule : allowedIn i s.docState = true → AnswersAgree R (ruleOf i s) (ruleOf i s')) :
    (t.errCode = t'.errCode ∧ t.errChan = t'.errChan ∧ t.errIndex = t'.errIndex ∧ t.errValue = t'.errValue ∧
      t.err = t'.err ∧ t.docState = t'.docState) ∧ (t.errCode = .none → R t t') := by
  have hsuccess := exec_success ht
  rw [exec_eq_runCommand] at ht ht'
  cases ha : allowedIn i s.docState with
  | false =>
    obtain rfl := Host.Outcome.next.inj ((runCommand_gated ha).symm.trans ht)
    obtain rfl := Host.Outcome.next.inj ((runCommand_gated (hdoc ▸ ha)).symm.trans ht')
    exact ⟨⟨rfl, rfl, rfl, rfl, rfl, hdoc⟩, fun hc => by cases hc⟩
  | true =>
    rcases hrule ha with ⟨e, hx, hy⟩ | ⟨u, u', hx, hy, hdoc', hwrites⟩
    · obtain rfl := Host.Outcome.next.inj ((runCommand_error ha hx).symm.trans ht)
      obtain rfl := Host.Outcome.next.inj ((runCommand_error (hdoc ▸ ha) hy).symm.trans ht')
      refine ⟨⟨rfl, rfl, rfl, rfl, rfl, hdoc⟩, fun hc => ?_⟩
      obtain ⟨-, u, hu, -⟩ := hsuccess hc
      cases hx.symm.trans hu
    · obtain rfl := Host.Outcome.next.inj ((runCommand_ok ha hx).symm.trans ht)
      obtain rfl := Host.Outcome.next.inj ((runCommand_ok (hdoc ▸ ha) hy).symm.trans ht')
      exact ⟨⟨rfl, rfl, rfl, rfl, rfl, hdoc'⟩, fun _ => hwrites⟩

/-- HdrDecode reads nothing from `len` on: below 44 bytes it fails before it reads (40_header_codec R122). -/
theorem hdrDecode_congr {s s' : State} {len : Nat} (h : ∀ a, a < len → byteAt s a = byteAt s' a) :
    hdrDecode s len = hdrDecode s' len := by
  rw [hdrDecode, hdrDecode]
  by_cases hlen : len < 44
  · rw [if_pos hlen, if_pos hlen]
  · rw [headerFields_congr fun b hb => h b (hb.trans_le (Nat.le_of_not_lt hlen))]

/-- LOAD reads BYTELEN, MAGIC_AND and the bytes below BYTELEN (42 R172). -/
theorem load_agree {s s' : State} (hcfg : s.cfg = s'.cfg) (hlen : s.byteLen = s'.byteLen)
    (hmagic : s.magicAnd = s'.magicAnd) (hbytes : ∀ a, a < s.byteLen.toNat → byteAt s a = byteAt s' a) :
    AnswersAgree (fun t t' => t.hdr = t'.hdr ∧ t.nSamples = t'.nSamples) (loadRule s) (loadRule s') := by
  unfold loadRule
  dsimp only
  rw [← hcfg, ← hlen, ← hmagic, ← hdrDecode_congr hbytes]
  refine .ite (.error _) ?_
  cases hdrDecode s s.byteLen.toNat with
  | error e => exact .error e
  | ok h => exact .ite (.error _) (.ite (.error _) (.ite (.error _) (.ite (.error _) (.ok rfl ⟨rfl, rfl⟩))))

/-- CREATE reads its operand registers only (30_encoding R95, 42 R174). -/
theorem create_agree {s s' : State} (harg0 : s.arg0 = s'.arg0) (harg1 : s.arg1 = s'.arg1) :
    AnswersAgree (fun t t' => t.hdr = t'.hdr ∧ t.nSamples = t'.nSamples ∧ t.byteLen = t'.byteLen)
      (createRule s) (createRule s') := by
  have hsr : sampleRateOperand s = sampleRateOperand s' := harg0
  have hnc : numChannelsOperand s = numChannelsOperand s' := congrArg (·.extractLsb' 0 16) harg1
  have hbps : bitsPerSampleOperand s = bitsPerSampleOperand s' := congrArg (·.extractLsb' 16 16) harg1
  unfold createRule
  dsimp only
  rw [hsr, hnc, hbps]
  exact .ite (.error _) (.ite (.error _) (.ok rfl ⟨rfl, rfl, rfl⟩))

theorem firstOutOfRange_congr {f g : Nat → Word} {n : Nat} (h : ∀ i, i < n → f i = g i) :
    firstOutOfRange f n = firstOutOfRange g n :=
  List.find?_congr fun i hi => by rw [h i (List.mem_range.mp hi)]

/-- The range check reads the elements below `n` only, and reports one of them (41 R148, R149). -/
theorem rangeError_congr {s s' : State} {n : Nat} (stereo : Bool)
    (h : ∀ i, i < n → leftAt s i = leftAt s' i ∧ rightAt s i = rightAt s' i) :
    rangeError s stereo n = rangeError s' stereo n := by
  unfold rangeError
  rw [← firstOutOfRange_congr fun i hi => (h i hi).1, ← firstOutOfRange_congr fun i hi => (h i hi).2]
  cases hl : firstOutOfRange (leftAt s) n with
  | some i => dsimp only; rw [(h i (firstOutOfRange_eq_some.mp hl).1).1]
  | none =>
    cases hr : firstOutOfRange (rightAt s) n with
    | some i => dsimp only; rw [(h i (firstOutOfRange_eq_some.mp hr).1).2]
    | none => rfl

/-- PackValidate reads the lengths, the header, RPRESENT and the elements below LEFTLEN (41 R148). -/
theorem packValidate_congr {s s' : State} (hcfg : s.cfg = s'.cfg) (hhdr : s.hdr = s'.hdr)
    (hleft : s.leftLen = s'.leftLen) (hright : s.rightLen = s'.rightLen) (hpresent : s.rPresent = s'.rPresent)
    (helems : ∀ i, i < s.leftLen.toNat → leftAt s i = leftAt s' i ∧ rightAt s i = rightAt s' i) :
    packValidate s = packValidate s' := by
  unfold packValidate
  dsimp only
  rw [← hcfg, ← hhdr, ← hleft, ← hright, ← hpresent, rangeError_congr _ helems]

/-- The two buffers hold the same in every cell below `k`. -/
def AgreeBelow (k : Nat) (m m' : Memory) : Prop := ∀ b, b < k → Cells.find m b = Cells.find m' b

/-- A MemWrite at `a` extends an agreement below `a` to the bytes it writes. -/
theorem AgreeBelow.memWrite {m m' : Memory} {a n k v : Nat} (h : AgreeBelow a m m') (hk : k ≤ a + n) :
    AgreeBelow k (memWrite m a n v) (memWrite m' a n v) := by
  intro b hb
  rw [find_memWrite, find_memWrite]
  split
  · rfl
  · exact h b (by omega)

/-- HdrEncode writes all of bytes 0 to 43, each of the 13 fields where the one before it ends (40 R120, R127). -/
theorem agreeBelow_hdrEncode (h : Header) (m m' : Memory) : AgreeBelow 44 (hdrEncode h m) (hdrEncode h m') := by
  simp only [hdrEncode]
  iterate 13 refine .memWrite ?_ (Nat.le_refl _)
  exact fun _ hb => absurd hb (Nat.not_lt_zero _)

/-- One frame: each channel's sample is written where the one before it ends (41 R146, R150). -/
theorem AgreeBelow.packFrame {s s' : State} {nc bps i : Nat} {m m' : Memory} (hbps : bps = 8 ∨ bps = 16)
    (h : AgreeBelow (44 + i * nc * bytesPerSample bps) m m') (helems : ∀ c, channelAt s c i = channelAt s' c i)
    (k : Nat) :
    AgreeBelow (44 + (i * nc + k) * bytesPerSample bps)
      ((List.range k).foldl (fun m c => packSample s nc bps m i c) m)
      ((List.range k).foldl (fun m c => packSample s' nc bps m i c) m') := by
  induction k with
  | zero => exact h
  | succ k ih =>
    have hsample : packedSample s bps i k = packedSample s' bps i k := by rw [packedSample, packedSample, helems]
    simp only [List.range_succ, List.foldl_append, List.foldl_cons, List.foldl_nil]
    rw [packSample_eq _ _ _ _ hbps, packSample_eq _ _ _ _ hbps, hsample]
    refine ih.memWrite (Nat.le_of_eq ?_)
    rw [← Nat.add_assoc (i * nc), Nat.succ_mul, Nat.add_assoc]

/-- PackWrite writes all of the payload, each frame where the one before it ends (41 R146, R150). -/
theorem AgreeBelow.packWrite {s s' : State} {n nc bps : Nat} {m m' : Memory} (hbps : bps = 8 ∨ bps = 16)
    (h : AgreeBelow 44 m m') (helems : ∀ i, i < n → ∀ c, channelAt s c i = channelAt s' c i) :
    AgreeBelow (44 + n * nc * bytesPerSample bps) (packWrite s n nc bps m) (packWrite s' n nc bps m') := by
  induction n with
  | zero => rwa [Nat.zero_mul, Nat.zero_mul]
  | succ n ih =>
    rw [packWrite_succ, packWrite_succ, Nat.succ_mul]
    exact (ih fun i hi => helems i (Nat.lt_succ_of_lt hi)).packFrame hbps (helems n (Nat.lt_succ_self n)) nc

/-- The image SET_DATA writes depends on the header and the packed elements only (42 R175). -/
theorem populated_agreeBelow {s s' : State} (hbps : s.hdr.bitsPerSample.toNat = 8 ∨ s.hdr.bitsPerSample.toNat = 16)
    (hhdr : s.hdr = s'.hdr) (hleft : s.leftLen = s'.leftLen)
    (helems : ∀ i, i < s.leftLen.toNat → leftAt s i = leftAt s' i ∧ rightAt s i = rightAt s' i) :
    AgreeBelow (44 + s.leftLen.toNat * bytesPerFrame s.hdr.numChannels.toNat s.hdr.bitsPerSample.toNat)
      (populatedState s).byte (populatedState s').byte := by
  have hchannels : ∀ i, i < s.leftLen.toNat → ∀ c, channelAt s c i = channelAt s' c i := fun i hi c => by
    rw [channelAt, channelAt, (helems i hi).1, (helems i hi).2]
  simp only [populatedState, ← hhdr, ← hleft]
  rw [bytesPerFrame, ← Nat.mul_assoc]
  exact (agreeBelow_hdrEncode _ _ _).packWrite hbps hchannels

/-- SET_DATA reads the header, the channel registers and the elements below LEFTLEN, and writes every byte of its image
(42 R175). -/
theorem setData_agree {s s' : State} (hbps : s.hdr.bitsPerSample.toNat = 8 ∨ s.hdr.bitsPerSample.toNat = 16)
    (hcfg : s.cfg = s'.cfg) (hdraws : s.draws = s'.draws) (hhdr : s.hdr = s'.hdr) (hleft : s.leftLen = s'.leftLen)
    (hright : s.rightLen = s'.rightLen) (hpresent : s.rPresent = s'.rPresent)
    (helems : ∀ i, i < s.leftLen.toNat → leftAt s i = leftAt s' i ∧ rightAt s i = rightAt s' i) :
    AnswersAgree (fun t t' => t.hdr = t'.hdr ∧ t.nSamples = t'.nSamples ∧ t.byteLen = t'.byteLen ∧
      ∀ a, a < t.byteLen.toNat → byteAt t a = byteAt t' a) (setDataRule s) (setDataRule s') := by
  have hvalid := packValidate_congr hcfg hhdr hleft hright hpresent helems
  cases hv : packValidate s with
  | error e =>
    rw [setDataRule_error hv, setDataRule_error (hvalid ▸ hv)]
    exact .error e
  | ok p =>
    rw [setDataRule_ok hv, setDataRule_ok (hvalid ▸ hv)]
    have hdraw (a : Nat) : Config.drawByte (s.draws + 1) a = Config.drawByte (s'.draws + 1) a := by rw [hdraws]
    refine .ok rfl ⟨?_, hleft, ?_, fun a ha => congrArg₂ Option.getD ?_ (hdraw a)⟩
    · simp only [State.succeeded, populatedState, hhdr, hleft]
    · simp only [State.succeeded, populatedState, hhdr, hleft]
    · exact populated_agreeBelow hbps hhdr hleft helems a
        (ha.trans_le ((BitVec.toNat_ofNat _ _).trans_le (Nat.mod_le _ _)))

/-- The elements GET_DATA writes depend on the payload only, which starts at byte 44, and not on the buffer they are
written over (41 R147, 42 R176). -/
theorem find_unpackInto_congr {s s' : State} (h : ∀ a, 44 ≤ a → byteAt s a = byteAt s' a) {n i : Nat} (hi : i < n)
    (nc bps c : Nat) (buf buf' : Elements) :
    Cells.find (unpackInto s n nc bps c buf) i = Cells.find (unpackInto s' n nc bps c buf') i := by
  have hread (k : Nat) : memRead s (sampleOffset nc bps i c) k = memRead s' (sampleOffset nc bps i c) k :=
    memRead_congr fun b hb _ => h b ((Nat.le_add_right _ _).trans hb)
  rw [find_unpackInto, find_unpackInto, if_pos hi, if_pos hi, unpackSample, unpackSample, hread, hread]

/-- GET_DATA reads the header, NSAMPLES and the payload bytes, and writes every element below NSAMPLES (42 R176). -/
theorem getData_agree {s s' : State} (hdraws : s.draws = s'.draws) (hdoc : s.docState = s'.docState)
    (hhdr : s.hdr = s'.hdr) (hn : s.nSamples = s'.nSamples) (hbytes : ∀ a, 44 ≤ a → byteAt s a = byteAt s' a) :
    AnswersAgree (fun t t' => t.leftLen = t'.leftLen ∧ t.rightLen = t'.rightLen ∧ t.rPresent = t'.rPresent ∧
      ∀ i, i < s.nSamples.toNat →
        leftAt t i = leftAt t' i ∧ (s.hdr.numChannels = 2 → rightAt t i = rightAt t' i))
      (getDataRule s) (getDataRule s') := by
  simp only [getDataRule, ← hhdr, ← hn]
  have hdraw (i : Nat) : Config.drawLeft (s.draws + 1) i = Config.drawLeft (s'.draws + 1) i ∧
      Config.drawRight (s.draws + 1) i = Config.drawRight (s'.draws + 1) i := ⟨by rw [hdraws], by rw [hdraws]⟩
  refine .ok hdoc ⟨rfl, rfl, rfl, fun i hi => ⟨?_, fun hstereo => ?_⟩⟩
  · exact congrArg₂ Option.getD (find_unpackInto_congr hbytes hi _ _ _ _ _) (hdraw i).1
  · have h2 : (s.hdr.numChannels.toNat == 2) = true := by rw [hstereo]; rfl
    simp only [if_pos h2]
    exact congrArg₂ Option.getD (find_unpackInto_congr hbytes hi _ _ _ _ _) (hdraw i).2

end Sys2Proof.Machine

open Sys2Proof Sys2Proof.Machine

/-- Settles O16: `exec_agree` over what each rule reads; the geometry of the document SET_DATA packs is the
invariant's. -/
theorem commandsReadOnlyTheirOperands : Obligations.CommandsReadOnlyTheirOperands := by
  rintro s s' t t' ⟨-, -, -, hinv, -⟩ - hcfg hdraws hdoc
  refine ⟨fun hlen hmagic hbytes ht ht' => ?load, fun harg0 harg1 ht ht' => ?create,
    fun hhdr hleft hright hpresent helems ht ht' => ?setData, fun hhdr hn hbytes ht ht' => ?getData,
    fun ht ht' => ?destroy⟩ <;> apply exec_agree hdoc ht ht' <;> intro ha
  case load => exact load_agree hcfg hlen hmagic hbytes
  case create => exact create_agree harg0 harg1
  case setData =>
    obtain ⟨hbps, -⟩ := inv_geometry hinv (hasDocument_of_setData_allowed ha)
    exact setData_agree hbps hcfg hdraws hhdr hleft hright hpresent helems
  case getData => exact getData_agree hdraws hdoc hhdr hn hbytes
  case destroy => exact .ok rfl ⟨rfl, rfl, rfl, rfl⟩

end

section
/-! PROOF. The header codec (40_header_codec): the 13 fields the bytes hold, what HdrEncode writes and HdrDecode reads
back, the tags MagicOk compares, and the integers ComputeDerived returns. -/

namespace Sys2Proof.Machine

/-- A MemWrite leaves what MemRead returns from other bytes alone (00_scope R11). -/
theorem memRead_memWrite_disjoint {s : State} {m : Memory} {a n b k : Nat} (v : Nat) (h : b + k ≤ a ∨ a + n ≤ b) :
    memRead { s with byte := memWrite m a n v } b k = memRead { s with byte := m } b k :=
  memRead_congr fun c hc hck => by
    rw [byteAt, byteAt, find_memWrite_outside m v (by omega)]

/-- A field as wide as `n` bytes holds the n-byte integer MemRead returns without loss (00_scope R11). -/
theorem toNat_ofNat_memRead (s : State) (a n : Nat) :
    (BitVec.ofNat (8 * n) (memRead s a n)).toNat = memRead s a n := by
  have hlt : memRead s a n < 2 ^ (8 * n) := Nat.pow_mul 2 8 n ▸ memRead_lt s a n
  exact (BitVec.toNat_ofNat _ _).trans (Nat.mod_eq_of_lt hlt)

/-- Bytes 0 to 43 hold the 13 fields of `h` in the layout of 40_header_codec R120. -/
def HoldsHeader (s : State) (h : Header) : Prop :=
  memRead s 0 4 = h.chunkId.toNat ∧ memRead s 4 4 = h.chunkSize.toNat ∧ memRead s 8 4 = h.format.toNat ∧
    memRead s 12 4 = h.fmtChunkId.toNat ∧ memRead s 16 4 = h.fmtChunkSize.toNat ∧
    memRead s 20 2 = h.audioFormat.toNat ∧ memRead s 22 2 = h.numChannels.toNat ∧
    memRead s 24 4 = h.sampleRate.toNat ∧ memRead s 28 4 = h.byteRate.toNat ∧
    memRead s 32 2 = h.blockAlign.toNat ∧ memRead s 34 2 = h.bitsPerSample.toNat ∧
    memRead s 36 4 = h.dataChunkId.toNat ∧ memRead s 40 4 = h.dataChunkSize.toNat

/-- A field's write is read back at its own width, and no later field overlaps it (40_header_codec R127). -/
theorem holdsHeader_hdrEncode (s : State) (h : Header) (m : Memory) :
    HoldsHeader { s with byte := hdrEncode h m } h := by
  have hword (m : Memory) (a : Nat) (v : Word) :
      memRead { s with byte := memWrite m a 4 v.toNat } a 4 = v.toNat :=
    (memRead_memWrite rfl).trans (Nat.mod_eq_of_lt v.isLt)
  have hhalf (m : Memory) (a : Nat) (v : Half) :
      memRead { s with byte := memWrite m a 2 v.toNat } a 2 = v.toNat :=
    (memRead_memWrite rfl).trans (Nat.mod_eq_of_lt v.isLt)
  simp (disch := omega) only [HoldsHeader, hdrEncode, memRead_memWrite_disjoint, hword, hhalf, and_self]

/-- Bytes hold one header only: the one the fields are read from (40_header_codec R122). -/
theorem HoldsHeader.headerFields_eq {s : State} {h : Header} (hs : HoldsHeader s h) : headerFields s = h := by
  simp only [HoldsHeader] at hs
  simp only [headerFields, hs, BitVec.ofNat_toNat, BitVec.setWidth_eq]

/-- HdrDecode of 44 bytes or more raises nothing (40_header_codec R122). -/
theorem hdrDecode_ok (s : State) {len : Nat} (hlen : 44 ≤ len) : hdrDecode s len = .ok (headerFields s) :=
  if_neg (Nat.not_lt.mpr hlen)

end Sys2Proof.Machine

open Sys2Proof Sys2Proof.Machine

/-- Settles O20: the bytes HdrEncode wrote hold the header, and HdrDecode reads the header they hold. -/
theorem headerRoundTrip : Obligations.HeaderRoundTrip := fun s h m _ hlen => by
  rw [hdrDecode_ok _ hlen, (holdsHeader_hdrEncode s h m).headerFields_eq]

/-- Settles O18: each field is as wide as the bytes it is read from, and the fields depend on bytes 0 to 43 only. -/
theorem hdrDecodeReadsTheFixedOffsets : Obligations.HdrDecodeReadsTheFixedOffsets := by
  intro s len
  have hfield := toNat_ofNat_memRead s
  refine ⟨fun hlen => if_pos hlen, fun hlen => ⟨headerFields s, hdrDecode_ok s hlen, ?fields⟩, fun s' hbytes => ?bytes⟩
  case fields =>
    exact ⟨hfield 0 4, hfield 4 4, hfield 8 4, hfield 12 4, hfield 16 4, hfield 20 2, hfield 22 2, hfield 24 4,
      hfield 28 4, hfield 32 2, hfield 34 2, hfield 36 4, hfield 40 4⟩
  case bytes => rw [hdrDecode, hdrDecode, headerFields_congr hbytes]

/-- Settles O19: what HdrEncode wrote, and that it wrote nothing beyond. -/
theorem hdrEncodeWritesTheFixedOffsets : Obligations.HdrEncodeWritesTheFixedOffsets := by
  intro s h m hs
  have hheader := holdsHeader_hdrEncode s h m
  rw [← hs] at hheader
  exact ⟨hheader, fun b hb => hs ▸ find_hdrEncode_outside h m hb⟩

/-- Settles O21: `||` and `&&` of the two comparisons, each of whole words. -/
theorem magicOkChecksTheTwoTags : Obligations.MagicOkChecksTheTwoTags := fun h =>
  have hriff : (h.chunkId == tagRiff) = true ↔ h.chunkId = 0x46464952 := beq_iff_eq
  have hwave : (h.format == tagWave) = true ↔ h.format = 0x45564157 := beq_iff_eq
  ⟨Bool.or_eq_true_iff.trans (or_congr hriff hwave), Bool.and_eq_true_iff.trans (and_congr hriff hwave)⟩

/-- Settles O22: a frame is a whole number of bytes, so dividing by 8 loses nothing, and only `byte_rate` can wrap. -/
theorem derivedFieldsFollowTheFormulas : Obligations.DerivedFieldsFollowTheFormulas := by
  intro nc sr bps len hnc hbps hlen
  have hframe : 8 ∣ nc.toNat * bps.toNat ∧ nc.toNat * bps.toNat ≤ 32 := by
    rcases hnc with rfl | rfl <;> rcases hbps with rfl | rfl <;> decide
  obtain ⟨hdvd, hle⟩ := hframe
  simp only [computeDerived, BitVec.toNat_ofNat]
  refine ⟨?blockAlign, ?byteRate, by omega, by omega⟩
  case blockAlign => rw [Nat.mod_eq_of_lt (by omega), Nat.div_mul_cancel hdvd]
  case byteRate => rw [Nat.mul_assoc, Nat.mul_div_assoc _ hdvd]

end

section
/-! PROOF. The host's turn in a step (00_scope R14, 70_reset R244), the resets (70_reset R230 to R234), and that a
latched command completes (70_reset R241): while it waits, a legal action that is no reset leaves it waiting with one
step less to go, and then the engine completes it. -/

namespace Sys2Proof.Machine

/-! ## The step, case by case -/

/-- The engine does not move while no command is latched (00_scope R14). -/
theorem step_idle {s : State} (hp : s.pend = none) : step s = hostTurn s := by
  simp only [step, hp]

theorem step_waiting {s : State} {w : Word} {n : Nat} (hp : s.pend = some w) (hw : s.wait = n + 1) :
    step s = hostTurn { s with wait := n } := by
  have hwaited : s.waited = { s with wait := n } := by rw [State.waited, hw, Nat.add_sub_cancel]
  simp only [step, hp, hw, if_neg (Nat.succ_ne_zero n), hwaited]

theorem step_engine {s : State} {w : Word} (hp : s.pend = some w) (hw : s.wait = 0) : step s = engineStep w s := by
  simp only [step, hp, if_pos hw]

theorem hostTurn_nil {s : State} (hi : s.inputs = []) : hostTurn s = .next s := by
  simp only [hostTurn, hi]

theorem hostTurn_cons {s : State} {a : HostAction} {rest : List HostAction} (hi : s.inputs = a :: rest) :
    hostTurn s = hostAction a { s with inputs := rest } := by
  simp only [hostTurn, hi]

/-! ## The completion -/

/-- Every command ends with PEND none (42_document_commands R179). -/
theorem exec_completes (i : Instr) (s : State) : ∃ t, exec i s = .next t ∧ t.pend = none := by
  rcases exec_cases i s with ⟨-, _, -, he⟩ | ⟨-, _, -, -, he⟩ | ⟨-, -, _, -, he⟩ | ⟨-, he⟩ <;> exact ⟨_, he, rfl⟩

/-- Whatever word is latched, the engine's step ends with PEND none (42_document_commands R170, R179). -/
theorem engineStep_completes (w : Word) (s : State) : ∃ t, engineStep w s = .next t ∧ t.pend = none := by
  unfold engineStep
  cases decode w with
  | ok i => exact exec_completes i s
  | error e => exact ⟨_, rfl, rfl⟩

/-! ## The wait -/

/-- An action that neither ends in BUS_ERROR nor discards the latched command. -/
abbrev HostAction.Harmless (cfg : Config) (a : HostAction) : Prop :=
  HostAction.legal cfg a = true ∧ HostAction.resets cfg a = false

/-- What the wait of a latched command rests on is as before: the command, the countdown and the parameters. -/
def State.SameWait (s t : State) : Prop := t.pend = s.pend ∧ t.wait = s.wait ∧ t.cfg = s.cfg

/-- Apart from the soft reset, a write while BUSY = 1 touches OVERRUN alone (20_memory R79). -/
theorem writeBusy_of_not_reset {s : State} {v : Word} {tg : Target} (h : ¬(tg = .reg 0x008 ∧ v.getLsbD 1 = true)) :
    ∃ b, writeBusy s v tg = { s with overrun := b } := by
  rw [writeBusy, if_neg h]
  split
  · exact ⟨_, rfl⟩
  · exact ⟨_, rfl⟩

/-- A harmless transaction is answered, and the latched command goes on waiting; no transaction adds an action. -/
theorem transact_sameWait {s : State} {w : Word} {x : Txn} (hp : s.pend = some w)
    (hx : HostAction.Harmless s.cfg (.bus x)) :
    ∃ t, transact x s = .next t ∧ s.SameWait t ∧ t.inputs = s.inputs := by
  obtain ⟨hlegal, hresets⟩ := hx
  cases x with
  | read addr size =>
    obtain ⟨tg, ht⟩ := Option.isSome_iff_exists.mp hlegal
    exact ⟨_, transact_read_legal ht, ⟨rfl, rfl, rfl⟩, rfl⟩
  | write addr size v =>
    obtain ⟨tg, ht⟩ := Option.isSome_iff_exists.mp hlegal
    have hreset : ¬(tg = .reg 0x008 ∧ v.getLsbD 1 = true) := by
      simpa [HostAction.resets, ht] using hresets
    obtain ⟨b, hb⟩ := writeBusy_of_not_reset (s := s) hreset
    refine ⟨_, transact_write_legal ht, ?_⟩
    rw [writeTarget_busy hp, hb]
    exact ⟨⟨rfl, rfl, rfl⟩, rfl⟩

/-- The same for every harmless action; POLL comes again, as BUSY = 1 (30_encoding R104). -/
theorem hostAction_sameWait {s : State} {w : Word} {a : HostAction} (hp : s.pend = some w)
    (ha : HostAction.Harmless s.cfg a) :
    ∃ t, hostAction a s = .next t ∧ s.SameWait t ∧ (t.inputs = s.inputs ∨ t.inputs = a :: s.inputs) := by
  cases a with
  | bus x =>
    obtain ⟨t, ht, hwait, hin⟩ := transact_sameWait hp ha
    exact ⟨t, ht, hwait, .inl hin⟩
  | poll => exact ⟨_, ((pollRepeatsWhileBusy s).2 w hp).1, ⟨rfl, rfl, rfl⟩, .inr rfl⟩
  | hardReset => exact nomatch ha.2

/-- One step of the wait: the countdown goes down by one, and the actions the rest of it can serve were among those the
whole of it could serve. -/
theorem step_sameWait {s : State} {w : Word} {n : Nat} (hp : s.pend = some w) (hw : s.wait = n + 1)
    (hacts : ∀ a ∈ s.inputs.take (n + 1), HostAction.Harmless s.cfg a) :
    ∃ t, step s = .next t ∧ State.SameWait { s with wait := n } t ∧ t.inputs.take n ⊆ s.inputs.take (n + 1) := by
  have hturn := step_waiting hp hw
  cases hi : s.inputs with
  | nil => exact ⟨_, hturn.trans (hostTurn_nil hi), ⟨rfl, rfl, rfl⟩, by simp [hi]⟩
  | cons a rest =>
    have ha : HostAction.Harmless s.cfg a := hacts a (by simp [hi])
    obtain ⟨t, ht, hwait, hin⟩ := hostAction_sameWait (s := { s with wait := n, inputs := rest }) hp ha
    refine ⟨t, (hturn.trans (hostTurn_cons hi)).trans ht, hwait, ?_⟩
    rcases hin with hin | hin <;> rw [hin]
    · exact List.subset_cons_self _ _
    · exact (List.take_prefix_take_left (Nat.le_succ n)).subset

/-- A run through the wait ends in the completion, by induction on the countdown. -/
theorem run_completes (n : Nat) : ∀ {s : State} {w : Word}, s.pend = some w → s.wait = n →
    (∀ a ∈ s.inputs.take n, HostAction.Harmless s.cfg a) →
    ∃ t, Host.Core.run core (n + 1) s = .next t ∧ t.pend = none := by
  induction n with
  | zero =>
    intro s w hp hw _
    obtain ⟨t, ht, hnone⟩ := engineStep_completes w s
    exact ⟨t, run_succ ((step_engine hp hw).trans ht) 0, hnone⟩
  | succ n ih =>
    intro s w hp hw hacts
    obtain ⟨u, hu, ⟨hpend, hwait, hcfg⟩, hin⟩ := step_sameWait hp hw hacts
    rw [run_succ hu]
    exact ih (hpend.trans hp) hwait fun a ha => hcfg ▸ hacts a (hin ha)

end Sys2Proof.Machine

open Sys2Proof Sys2Proof.Machine

/-- Settles O7: `run_completes` for the latency left. -/
theorem latchedCommandCompletes : Obligations.LatchedCommandCompletes := fun s _ hp hacts =>
  run_completes s.wait hp rfl hacts

/-- Settles O6: `step_idle` or `step_waiting`, and the host's turn on its list of actions. -/
theorem stepServesTheHost : Obligations.StepServesTheHost := fun _ =>
  ⟨fun hp hi => (step_idle hp).trans (hostTurn_nil hi),
    fun _ _ hp hi => (step_idle hp).trans (hostTurn_cons hi),
    fun _ _ hp hw hi => (step_waiting hp hw).trans (hostTurn_nil hi),
    fun _ _ _ _ hp hw hi => (step_waiting hp hw).trans (hostTurn_cons hi)⟩

/-- Settles O53: the write is `State.softReset`, which keeps the buffers when idle; the aborting one is among the writes
of `busyWritesAreDropped`. -/
theorem softResetIdleAndAborting : Obligations.SoftResetIdleAndAborting := by
  intro s v hv
  refine ⟨fun hp => ?_, fun w hp => ?_⟩
  · have hreset : writeReg s v .ctrl = s.resetRegisters := (if_pos hv).trans (softReset_idle s hp)
    exact write_register_idle .ctrl (by decide) hp hreset
  · obtain ⟨-, -, haborts, -⟩ := busyWritesAreDropped s 0x00000008 .b4 v w hp
    exact haborts hv

/-- Settles O54: the action is `State.hardReset`. -/
theorem hardwareResetFromAnyState : Obligations.HardwareResetFromAnyState := fun s =>
  congrArg Host.Outcome.next (hardReset_eq s)

/-- Settles O55, by the rows of the register map; the buffers list no cell. -/
theorem resetValues : Obligations.ResetValues := by
  refine ⟨fun off r hr => ?_, rfl, rfl, fun a => ⟨Cells.find_nil a, Cells.find_nil a, Cells.find_nil a⟩⟩
  unfold Reg.at? at hr
  split at hr <;> cases hr <;> rfl

end
